-- ==== Sys2Proof/Word.lean ====
section
/-! DEFINITION. The words of the block: bytes, 32-bit words, CAN identifiers and binary32 bit patterns.
No arithmetic stands here: byte order, field assembly and floating point are in `Machine/Operands.lean`
and `Machine/Float.lean`. -/

namespace Sys2Proof

/-- One data byte of a frame, or an 8-bit address (R9, R13, R24). -/
abbrev Byte := BitVec 8

/-- A 32-bit value: `BITRATE`, the request mask, the torque operand, the rotor code (R25, R98, R99, R100). -/
abbrev Word := BitVec 32

/-- A CAN identifier, 29 bits wide when the frame is extended (R13, R60). -/
abbrev Ident := BitVec 29

/-- The bit pattern of an IEEE 754 binary32 value (R12, R30). Every pattern is a legal value. -/
abbrev B32 := BitVec 32

end Sys2Proof
end

