-- ==== Sys2Proof/Syntax.lean ====
section
/-! DEFINITION. The syntax: what reaches the block (received frames and host operations) and the ONE
inductive of instructions, one constructor per row of `spec/opcode_table.json`. -/

namespace Sys2Proof

/-- A frame `(ext, id, len, data)` (R13); `len` is the number of data bytes. A transport may present more
than 8 (R83), so the type does not bound it. -/
structure Frame where
  /-- 1 for an extended identifier. -/
  ext : Bool
  /-- The identifier; a standard frame uses its low 11 bits. -/
  id : Ident
  /-- The data bytes, `data[0]` first. -/
  data : List Byte
deriving DecidableEq, Repr

/-- `len` of a frame (R13). -/
abbrev Frame.len (f : Frame) : Nat := f.data.length

/-- A host operation as it is issued (R111): a 4-bit code, with the operands beside it as separate typed
fields. An operation reads only its own operands. -/
structure HostWord where
  code : BitVec 4
  /-- `CONFIGURE`'s "transport present". -/
  tp : Bool := false
  /-- `CONFIGURE`'s "motor present". -/
  motor : Bool := false
  /-- `CONFIGURE`'s node address. -/
  addr : Byte := 0
  /-- `CONFIGURE`'s bit rate. -/
  bitrate : Word := 0
  /-- `SET_REMOTE_ENABLE`'s bit. -/
  enable : Bool := false
  /-- `SET_VOLTAGE`'s volts. -/
  volts : B32 := 0
  /-- `SET_ERROR`'s code. -/
  err : Int := 0
  /-- `RUN`'s clock value. -/
  now : Nat := 0
deriving DecidableEq, Repr

/-- What the block can be given to decode: a received frame or a host operation. -/
inductive Item where
  | frame (f : Frame)
  | host (w : HostWord)
deriving DecidableEq, Repr

/-- The identifier bits of a received frame that select no handler (R80): `id[28:16]`, ignored on receive,
and the target address `id[7:0]`, tested before routing. -/
structure IdRest where
  unused : BitVec 13
  target : Byte
deriving DecidableEq, Repr

/-- The instructions: one constructor per row of the opcode table. A received command keeps every bit of
its frame, the ignored ones too. -/
inductive Instr where
  /-- `PROCESS_SHORT_BUFFER`, command id 8, with the whole payload (R87, R170). -/
  | processShortBuffer (hdr : IdRest) (payload : List Byte)
  /-- `SET_CURRENT_REL`, command id 10, with the whole payload (R88, R161). -/
  | setCurrentRel (hdr : IdRest) (payload : List Byte)
  /-- `PING`, command id 17; the payload is not read (R89, R165). -/
  | ping (hdr : IdRest) (payload : List Byte)
  /-- `POLL_ROTOR_POS`, command id 56; the payload is not read (R89, R167). -/
  | pollRotorPos (hdr : IdRest) (payload : List Byte)
  /-- `SB_FW_VERSION`, sub-command 0: `data[0]`, `data[1]` and `data[3..]` (R87, R190). -/
  | sbFwVersion (hdr : IdRest) (replyTo reserved : Byte) (rest : List Byte)
  /-- `SB_GET_VALUES_SELECTIVE`, sub-command 50: `data[0]`, `data[1]` and `data[3..]` (R92, R193). -/
  | sbGetValuesSelective (hdr : IdRest) (replyTo reserved : Byte) (rest : List Byte)
  /-- `CONFIGURE`, host code 1 (R120). -/
  | configure (tp motor : Bool) (addr : Byte) (bitrate : Word)
  /-- `OPEN`, host code 2 (R122). -/
  | openBus
  /-- `SET_REMOTE_ENABLE`, host code 3 (R124). -/
  | setRemoteEnable (b : Bool)
  /-- `SET_VOLTAGE`, host code 4 (R125). -/
  | setVoltage (v : B32)
  /-- `SET_ERROR`, host code 5 (R126). -/
  | setError (e : Int)
  /-- `RUN`, host code 6 (R140). -/
  | run (now : Nat)
deriving DecidableEq, Repr

/-- Does the instruction come from the bus (a received command), not from the host (R239)? -/
def Instr.fromBus : Instr → Bool
  | .processShortBuffer _ _ => true
  | .setCurrentRel _ _ => true
  | .ping _ _ => true
  | .pollRotorPos _ _ => true
  | .sbFwVersion _ _ _ _ => true
  | .sbGetValuesSelective _ _ _ _ => true
  | .configure _ _ _ _ => false
  | .openBus => false
  | .setRemoteEnable _ => false
  | .setVoltage _ => false
  | .setError _ => false
  | .run _ => false

end Sys2Proof
end

