-- ==== Sys2Proof/Config.lean ====
section
/-! DEFINITION. What one implementation of the block fixes (R6): its parameters with the spec's defaults, the
build-time constants, and the FREE VALUES of R225 and R281. Since the widths `CLK_W` and `ERR_W` are parameters, a clock value is
a natural number and an error code an integer, cut to their width where they are written (log entry 3).
A free value is an opaque constant with no body: nothing can be proved of what it is. -/

namespace Sys2Proof

/-- `P_ACCEPT_FILTER` (R6, R143): does the transport filter exactly, or not at all. -/
inductive AcceptFilter where
  | exact
  | none
deriving DecidableEq, Repr

/-- `P_REFRESH_STAMP` (R6, R194): the refresh stores the cycle's `now`, or a fresh clock read. -/
inductive RefreshStamp where
  | cycleNow
  | freshRead
deriving DecidableEq, Repr

/-- `P_RX_ARRIVALS` (R6, R66): may frames arrive during a `RUN`. -/
inductive RxArrivals where
  | allowed
  | none
deriving DecidableEq, Repr

/-- Which function a `P_*_ARITH` or `P_ANGLE_CODE` parameter is (R6): the spec's default, or another one
that the implementation brings, of which nothing is known. -/
inductive Arith where
  | default
  | implementation
deriving DecidableEq, Repr

/-- The parameters of R6. A machine keeps them for life. -/
structure Params where
  /-- `CLK_W`, the width of the microsecond clock in bits (D4). -/
  clkW : Nat
  /-- `ERR_W`, the width of the error register in bits (D30). -/
  errW : Nat
  /-- `LAST_COMM_INIT`, the watchdog timestamp at power-on (D7). -/
  lastCommInit : Nat
  /-- `P_ACCEPT_FILTER`. -/
  acceptFilter : AcceptFilter
  /-- `P_WD_REFRESH_GATED`. -/
  wdRefreshGated : Bool
  /-- `P_REFRESH_STAMP`. -/
  refreshStamp : RefreshStamp
  /-- `P_RX_ARRIVALS`. -/
  rxArrivals : RxArrivals
  /-- `P_ANGLE_CODE`: the default is `ANGLE_IDEAL` (R168). -/
  angleCode : Arith
  /-- `P_TORQUE_ARITH`: the default is `TORQUE_B64` (R162). -/
  torqueArith : Arith
  /-- `P_VBYTE_ARITH`: the default is `VBYTE_B32` (R101). -/
  vbyteArith : Arith
  /-- `FW_MAJOR` (D26). -/
  fwMajor : Byte
  /-- `FW_MINOR` (D26). -/
  fwMinor : Byte
deriving DecidableEq, Repr

/-- `FW_MAJOR` of the build: an OPEN parameter, no value stated (R6, D26; log entry 4). -/
opaque Config.fwMajor : Byte

/-- `FW_MINOR` of the build: an OPEN parameter, no value stated (R6, D26; log entry 4). -/
opaque Config.fwMinor : Byte

/-- Another `P_ANGLE_CODE`: its value at a finite angle (R168, D19; log entry 5). -/
opaque Config.angleOther : B32 → Word

/-- Another `P_TORQUE_ARITH` (R162, D20; log entry 5). -/
opaque Config.torqueOther : B32 → Word → B32

/-- Another `P_VBYTE_ARITH`: a byte, or `none` for a draw (R6, D21; log entry 5). -/
opaque Config.vbyteOther : B32 → Option Byte

/-- The free byte of draw number `n`: a voltage byte or a remote frame's data byte (R225; log entry 6). -/
opaque Config.freeByte : Nat → Byte

/-- The free 32-bit word of draw number `n`: a rotor code or the payload of a NaN target (R225; log entries 6, 7). -/
opaque Config.freeWord : Nat → Word

/-- The free clock offset of draw number `n`: a refresh stamp under `FRESH_READ` (R194, R225; log entry 6). -/
opaque Config.freeClock : Nat → Nat

/-- Arrival number `n` of a peer of which nothing is known: a frame, or none and the block's turn (R66, R281; log
entry 21). -/
opaque Config.freeArrival : Nat → Option Frame

/-- The spec's default for every parameter of R6 that has one; `FW_MAJOR` and `FW_MINOR` stay open. -/
def Config.defaults : Params where
  clkW := 32
  errW := 32
  lastCommInit := 0
  acceptFilter := .exact
  wdRefreshGated := true
  refreshStamp := .cycleNow
  rxArrivals := .allowed
  angleCode := .default
  torqueArith := .default
  vbyteArith := .default
  fwMajor := Config.fwMajor
  fwMinor := Config.fwMinor

end Sys2Proof
end

