-- ==== Sys2Proof/WellFormed.lean ====
section
/-! DEFINITION. Which frames a transport may present and which instructions an encoding exists for. -/

namespace Sys2Proof

/-- A frame within the transport's contract: at most 8 data bytes (R83), and an 11-bit identifier when it
is a standard frame (R13). -/
def Frame.wf (f : Frame) : Bool :=
  decide (f.len ≤ 8) && (f.ext || decide (f.id.toNat < 2 ^ 11))

/-- Is the payload that of one of the two sub-command rows (R86: `SBKEY` is defined from 3 bytes on, R91)? -/
def isSubCommand : List Byte → Bool
  | _ :: _ :: sub :: _ => sub == 0x00#8 || sub == 0x32#8
  | _ => false

/-- A well-formed instruction: its frame holds at most 8 data bytes (R83), and a `PROCESS_SHORT_BUFFER` is
one that no sub-command row describes (log entry 8). Every host operation is well formed: a clock or error operand
is cut to its width where it is written (log entry 3). -/
def Instr.wf : Instr → Bool
  | .processShortBuffer _ p => decide (p.length ≤ 8) && !isSubCommand p
  | .setCurrentRel _ p => decide (p.length ≤ 8)
  | .ping _ p => decide (p.length ≤ 8)
  | .pollRotorPos _ p => decide (p.length ≤ 8)
  | .sbFwVersion _ _ _ r => decide (r.length ≤ 5)
  | .sbGetValuesSelective _ _ _ r => decide (r.length ≤ 5)
  | .configure _ _ _ _ => true
  | .openBus => true
  | .setRemoteEnable _ => true
  | .setVoltage _ => true
  | .setError _ => true
  | .run _ => true

end Sys2Proof
end

