-- ==== Sys2Proof/Decode.lean ====
section
/-! DEFINITION. The decoder, total on any frame and any host operation, rejecting by name; then the
encoder, written from the same tables of the spec (R80, R90, R91, R111); then the numbering of
`spec/opcode_table.json` (R86). -/

namespace Sys2Proof

/-- Why an item is no instruction. -/
inductive Reject where
  /-- A frame of more than 8 data bytes (R83). -/
  | tooLong
  /-- A standard frame (R84). -/
  | notExtended
  /-- A command id that the command map does not list (R90). -/
  | unknownCommand
  /-- A host code that names no operation (R111). -/
  | badHostOp
deriving DecidableEq, Repr

/-- The decoder's answer. -/
inductive Decoded where
  | instr (i : Instr)
  | reject (r : Reject)
deriving DecidableEq, Repr

/-- `CMD_PROCESS_SHORT_BUFFER` (R36). -/
def cmdProcessShortBuffer : Byte := 8
/-- `CMD_SET_CURRENT_REL` (R36). -/
def cmdSetCurrentRel : Byte := 10
/-- `CMD_PING` (R36). -/
def cmdPing : Byte := 17
/-- `CMD_PONG` (R36): a reply, and no command of the map. -/
def cmdPong : Byte := 18
/-- `CMD_POLL_ROTOR_POS` (R36). -/
def cmdPollRotorPos : Byte := 56
/-- `SB_FW_VERSION` (R36). -/
def subFwVersion : Byte := 0
/-- `SB_GET_VALUES_SELECTIVE` (R36). -/
def subGetValuesSelective : Byte := 50

/-- `target_id`, identifier bits 7:0 (R81). -/
def targetId (id : Ident) : Byte := id.extractLsb' 0 8

/-- `command_id`, identifier bits 15:8 (R81). -/
def commandId (id : Ident) : Byte := id.extractLsb' 8 8

/-- The identifier bits beside the command id (R80). -/
def idRest (id : Ident) : IdRest := ⟨id.extractLsb' 16 13, targetId id⟩

/-- The second decoding stage (R86 format `RX-SB`, R91): a short buffer of 3 bytes or more whose
sub-command has a row of its own is that row's instruction; any other short buffer is
`PROCESS_SHORT_BUFFER` (log entry 8). -/
def decodeShortBuffer (hdr : IdRest) (payload : List Byte) : Instr :=
  match payload with
  | replyTo :: reserved :: sub :: rest =>
    if sub = subFwVersion then .sbFwVersion hdr replyTo reserved rest
    else if sub = subGetValuesSelective then .sbGetValuesSelective hdr replyTo reserved rest
    else .processShortBuffer hdr payload
  | _ => .processShortBuffer hdr payload

/-- Decode a received frame: length, frame type, then the command map on identifier bits 15:8
(R83, R84, R90). -/
def decodeFrame (f : Frame) : Decoded :=
  if 8 < f.len then .reject .tooLong
  else if f.ext = false then .reject .notExtended
  else if commandId f.id = cmdProcessShortBuffer then .instr (decodeShortBuffer (idRest f.id) f.data)
  else if commandId f.id = cmdSetCurrentRel then .instr (.setCurrentRel (idRest f.id) f.data)
  else if commandId f.id = cmdPing then .instr (.ping (idRest f.id) f.data)
  else if commandId f.id = cmdPollRotorPos then .instr (.pollRotorPos (idRest f.id) f.data)
  else .reject .unknownCommand

/-- Decode a host operation by its 4-bit code (R111). -/
def decodeHost (w : HostWord) : Decoded :=
  if w.code = 0x1#4 then .instr (.configure w.tp w.motor w.addr w.bitrate)
  else if w.code = 0x2#4 then .instr .openBus
  else if w.code = 0x3#4 then .instr (.setRemoteEnable w.enable)
  else if w.code = 0x4#4 then .instr (.setVoltage w.volts)
  else if w.code = 0x5#4 then .instr (.setError w.err)
  else if w.code = 0x6#4 then .instr (.run w.now)
  else .reject .badHostOp

/-- The decoder. -/
def decode : Item → Decoded
  | .frame f => decodeFrame f
  | .host w => decodeHost w

/-- The identifier of a received command: `id[28:16]`, the command id, the target (R80). -/
def commandIdent (hdr : IdRest) (cmd : Byte) : Ident := hdr.unused ++ cmd ++ hdr.target

/-- The extended frame of a received command (R80). -/
def commandFrame (hdr : IdRest) (cmd : Byte) (payload : List Byte) : Item :=
  .frame ⟨true, commandIdent hdr cmd, payload⟩

/-- The encoder: the frame or host operation that stands for an instruction (R87 to R92, R111). -/
def encode : Instr → Item
  | .processShortBuffer hdr p => commandFrame hdr cmdProcessShortBuffer p
  | .setCurrentRel hdr p => commandFrame hdr cmdSetCurrentRel p
  | .ping hdr p => commandFrame hdr cmdPing p
  | .pollRotorPos hdr p => commandFrame hdr cmdPollRotorPos p
  | .sbFwVersion hdr replyTo reserved rest =>
    commandFrame hdr cmdProcessShortBuffer (replyTo :: reserved :: subFwVersion :: rest)
  | .sbGetValuesSelective hdr replyTo reserved rest =>
    commandFrame hdr cmdProcessShortBuffer (replyTo :: reserved :: subGetValuesSelective :: rest)
  | .configure tp motor addr bitrate => .host { code := 0x1#4, tp, motor, addr, bitrate }
  | .openBus => .host { code := 0x2#4 }
  | .setRemoteEnable b => .host { code := 0x3#4, enable := b }
  | .setVoltage v => .host { code := 0x4#4, volts := v }
  | .setError e => .host { code := 0x5#4, err := e }
  | .run now => .host { code := 0x6#4, now }

/-- The target a table word's frame is addressed to. No row fixes identifier bits 7:0, and a frame for
target 0 never reaches a handler (R147): where the word leaves the target at 0, it is 1 (log entry 9). -/
def tableTarget (id : Ident) : Ident :=
  if targetId id = 0 then id ||| 1 else id

/-- The frame of a word of format `RX-EXT` (R86): its bits are the identifier's. A `SET_CURRENT_REL` gets
the four operand bytes its row needs, zero; the other rows get no data byte (log entry 9). -/
def tableCommandFrame (id : Ident) : Frame :=
  ⟨true, tableTarget id, if commandId id = cmdSetCurrentRel then [0, 0, 0, 0] else []⟩

/-- The frame of a word of format `RX-SB` (R86): the high byte of the key is the command id, the low byte
is `data[2]`; the other seven data bytes are zero (log entry 9). -/
def tableShortBufferFrame (key : BitVec 16) : Frame :=
  ⟨true, tableTarget ((key.extractLsb' 8 8).setWidth 29 <<< 8),
    [0, 0, key.extractLsb' 0 8, 0, 0, 0, 0, 0]⟩

/-- The item a table word of `nbits` bits stands for (R86): up to 8 bits a host code with zero operands;
up to 16 bits a short-buffer key when its high byte is the short-buffer command; otherwise an identifier. -/
def tableItem (nbits w : Nat) : Option Item :=
  if nbits ≤ 8 then
    if w < 16 then some (.host { code := BitVec.ofNat 4 w }) else none
  else if nbits ≤ 16 ∧ w / 256 = cmdProcessShortBuffer.toNat then
    some (.frame (tableShortBufferFrame (BitVec.ofNat 16 w)))
  else if w < 2 ^ 29 then some (.frame (tableCommandFrame (BitVec.ofNat 29 w)))
  else none

/-- The instruction the decoder reads from a word numbered as the opcode table numbers it. -/
def decodeTableWord (nbits w : Nat) : Option Instr :=
  match tableItem nbits w with
  | none => none
  | some it =>
    match decode it with
    | .instr i => some i
    | .reject _ => none

end Sys2Proof
end

