-- ==== Sys2Proof/Machine/State.lean ====
section
/-! DEFINITION. The state of the block and of what surrounds it, as plain data; the reasons an operation is
refused and a frame is dropped; the state at power-on (R260). -/

namespace Sys2Proof.Machine

/-- `LC`, the lifecycle register (R22); the value 3 is never written, so it has no constructor. -/
inductive Lifecycle where
  | unconfigured
  | configured
  | opened
deriving DecidableEq, Repr

/-- The 2-bit encoding of `LC` (R22). -/
def Lifecycle.code : Lifecycle → BitVec 2
  | .unconfigured => 0
  | .configured => 1
  | .opened => 2

/-- `PHASE`, the position within the `RUN` sequence (R21). -/
inductive Phase where
  | idle
  | wdCheck
  | drain
deriving DecidableEq, Repr

/-- The reasons of a refusal that `REFUSED` records (R223). -/
inductive RefuseReason where
  | configureTwice
  | openBeforeConfigure
  | openTwice
  | openUnboundTransport
  | runBeforeOpen
  | hostOpDuringRun
  | rxLenGt8
  | badHostOp
deriving DecidableEq, Repr

/-- The reasons of a drop (R221). None is visible on the bus. -/
inductive DropReason where
  | notAccepted
  | notExtended
  | address
  | unknownCommand
  | scrRemoteDisabled
  | scrShort
  | sbShort
  | sbUnknownSub
  | gvsShort
deriving DecidableEq, Repr

/-- The codes 1 to 9 of the drop reasons (R221). -/
def DropReason.code : DropReason → Nat
  | .notAccepted => 1
  | .notExtended => 2
  | .address => 3
  | .unknownCommand => 4
  | .scrRemoteDisabled => 5
  | .scrShort => 6
  | .sbShort => 7
  | .sbUnknownSub => 8
  | .gvsShort => 9

/-- The diagnostic events: one, without payload (R244). -/
inductive DiagCode where
  | wdTimeout
deriving DecidableEq, Repr

/-- The outputs of the block, each an event of the output trace (R10, R67). -/
inductive Output where
  /-- `TxWrite(f)`: a frame handed to the transport. -/
  | tx (f : Frame)
  /-- `Motor.enable()`. -/
  | motorEnable
  /-- `Motor.disable()`. -/
  | motorDisable
  /-- `Motor.target <- v`. -/
  | motorTarget (v : B32)
  /-- `Diag(code)`. -/
  | diag (c : DiagCode)
deriving DecidableEq, Repr

/-- The motor's state as the block sees it: environment, not block registers (R37, R241). -/
structure Motor where
  enabled : Bool
  target : B32
  currentLimit : B32
  shaftAngle : B32
deriving DecidableEq, Repr

/-- A `MOTOR` step of the host or the environment: it sets the fields it names (R110, R241). -/
structure MotorStep where
  enabled : Option Bool := none
  target : Option B32 := none
  currentLimit : Option B32 := none
  shaftAngle : Option B32 := none
deriving DecidableEq, Repr

/-- A bus peer whose frames do not stop arriving (R281; log entry 21). Each arrival is a frame, or `none`, which leaves
the block its turn. -/
inductive Peer where
  /-- These arrivals over and over. -/
  | repeats (arrivals : List (Option Frame))
  /-- The arrivals `Config.freeArrival` from number `n` on, of which nothing is known. -/
  | free (n : Nat)
deriving DecidableEq, Repr

/-- What the outside world does next to the block (log entry 10). -/
inductive Event where
  /-- The host issues an operation now (R111). -/
  | host (w : HostWord)
  /-- A frame reaches the transport now (`RXQ`, R110). -/
  | rx (f : Frame)
  /-- A remote-request frame of `len` data bytes reaches the transport now; its bytes are draws (R85). -/
  | rxRemote (ext : Bool) (id : Ident) (len : Nat)
  /-- A `MOTOR` step; it waits until the `RUN` in progress has ended (R241). -/
  | motor (m : MotorStep)
  /-- Nothing happens outside: the block takes its own next step. -/
  | tick
  /-- The caller waits until the `RUN` in progress has returned; the block takes its own next steps. -/
  | await
  /-- From now on the arrivals of this peer, without end: the event stays, and what follows it never comes. -/
  | unending (p : Peer)
deriving DecidableEq, Repr

/-- The whole state. -/
structure State where
  -- the registers of R33, by index 0x0 to 0xE
  /-- `LC` (R22). -/
  lc : Lifecycle
  /-- `TP_BOUND` (R23). -/
  tpBound : Bool
  /-- `MOTOR_BOUND` (R23). -/
  motorBound : Bool
  /-- `NODE_ADDR` (R24). -/
  nodeAddr : Byte
  /-- `BITRATE` (R25). -/
  bitrate : Word
  /-- `FILT_ID` (R26). -/
  filtId : Ident
  /-- `FILT_MASK` (R26). -/
  filtMask : Ident
  /-- `FILT_EXT` (R26). -/
  filtExt : Bool
  /-- `LOOPBACK` (R27). -/
  loopback : Bool
  /-- `BUS_STARTED` (R28). -/
  busStarted : Bool
  /-- `REMOTE_EN` (R29). -/
  remoteEn : Bool
  /-- `VOLTAGE` (R30). -/
  voltage : B32
  /-- `ERROR` (R31). -/
  error : Int
  /-- `LAST_COMM` (R32). -/
  lastComm : Nat
  /-- `REFUSED`: the mark and its reason (R40); `none` is the mark at 0. -/
  refused : Option RefuseReason
  -- hidden and working registers
  /-- `PHASE` (R21). -/
  phase : Phase
  /-- `RXF`, the frame being processed (R35). -/
  rxf : Frame
  /-- The clock value of the `RUN` in progress (R140, R242). -/
  now : Nat
  -- environment state (R37)
  /-- The motor (R241). -/
  motor : Motor
  /-- The transport's receive queue, head first (R240). -/
  rxQueue : List Frame
  /-- The outputs emitted so far, oldest first (R67). -/
  out : List Output
  /-- What the outside world will do, next first (log entry 10); it may end in arrivals that do not stop (log entry 21). -/
  inputs : List Event
  -- the model's own
  /-- The drops so far, oldest first, each with its frame (R221). -/
  drops : List (DropReason × Frame)
  /-- How many free values have been drawn (R225; log entry 6). -/
  draws : Nat
  /-- The parameters of this machine (R6). -/
  params : Params
deriving DecidableEq, Repr

/-- The block raises no exception and takes no trap (R220); "`fault`: not used; the block has none"
(93_implementation_defined.md). The type is empty. -/
inductive Fault : Type
deriving DecidableEq, Repr

/-- Why the model has no meaning for a step. Both are safe: the model stops. -/
inductive Refusal where
  /-- An instruction that has no meaning yet; raised by an arm of `exec`, by none of this model. -/
  | notModelled (mnemonic : String)
  /-- Raised by `step` when `REFUSED` is set: after a use outside the contract the spec gives no
  successor state beyond the mark (R224). -/
  | contractBroken (r : RefuseReason)
deriving DecidableEq, Repr

/-- The result of a step or of an instruction. -/
abbrev Result := Host.Outcome State Fault Refusal

/-- The state at power-on of a machine with the parameters `p`, before any host operation (R260); log entries 1 and 2
name every value that the spec does not state. -/
def State.powerOn (p : Params) : State where
  lc := .unconfigured
  tpBound := false
  motorBound := false
  nodeAddr := 0
  bitrate := 0
  filtId := 0
  filtMask := 0
  filtExt := false
  loopback := false
  busStarted := false
  remoteEn := false
  voltage := 0
  error := 0
  lastComm := p.lastCommInit % 2 ^ p.clkW
  refused := none
  phase := .idle
  rxf := ⟨false, 0, []⟩
  now := 0
  motor := ⟨false, 0, 0, 0⟩
  rxQueue := []
  out := []
  inputs := []
  drops := []
  draws := 0
  params := p

/-- The state at power-on under the spec's defaults (R6, R260; log entry 18). -/
def State.reset : State := State.powerOn Config.defaults

end Sys2Proof.Machine
end

