-- ==== Sys2Proof/Machine/Float.lean ====
section
/-! DEFINITION. IEEE 754 arithmetic in exact integers: a binary32 pattern is unpacked to sign, integer
significand and power of two; a result is computed exactly as a ratio of naturals and then rounded once, to
nearest with ties to even (R12). -/

namespace Sys2Proof.Machine

/-- A floating-point value: `fin neg mant exp` denotes `(-1)^neg · mant · 2^exp`. -/
inductive FloatVal where
  | nan
  | inf (neg : Bool)
  | fin (neg : Bool) (mant : Nat) (exp : Int)
deriving DecidableEq, Repr

/-- A binary format: precision in bits, and the least and greatest exponent of a unit in the last place. -/
structure FloatFormat where
  prec : Nat
  minExp : Int
  maxExp : Int
deriving DecidableEq, Repr

/-- IEEE 754 single precision (R12). -/
def binary32 : FloatFormat := ⟨24, -149, 104⟩

/-- IEEE 754 double precision (R12). -/
def binary64 : FloatFormat := ⟨53, -1074, 971⟩

/-- The value a binary32 pattern denotes (R12). -/
def unpack32 (b : B32) : FloatVal :=
  let neg := b.getLsbD 31
  let e := (b.extractLsb' 23 8).toNat
  let f := (b.extractLsb' 0 23).toNat
  if e = 255 then (if f = 0 then .inf neg else .nan)
  else if e = 0 then .fin neg f (-149)
  else .fin neg (f + 2 ^ 23) ((e : Int) - 150)

/-- The sign bit of a binary32 pattern, as a word. -/
def signBit (neg : Bool) : B32 := if neg then 0x80000000#32 else 0#32

/-- The binary32 pattern of a value that rounding to binary32 has produced; a NaN has no pattern of its
own here, since IEEE 754 has many and the spec names none (log entry 7). -/
def pack32 : FloatVal → Option B32
  | .nan => none
  | .inf neg => some (signBit neg ||| 0x7F800000#32)
  | .fin neg mant exp =>
    if mant < 2 ^ 23 then some (signBit neg ||| BitVec.ofNat 32 mant)
    else some (signBit neg ||| BitVec.ofNat 32 ((exp + 150).toNat * 2 ^ 23 + (mant - 2 ^ 23)))

/-- The NaN pattern that takes its free bits from `w`: some NaN, whichever `w` is. -/
def nanOf (w : Word) : B32 :=
  if w.extractLsb' 0 23 = 0#23 then w ||| 0x7F800001#32 else w ||| 0x7F800000#32

/-- Numerator of `mant · 2^exp` as a ratio of naturals. -/
def ratioNum (mant : Nat) (exp : Int) : Nat := mant * 2 ^ exp.toNat

/-- Denominator of `mant · 2^exp` as a ratio of naturals. -/
def ratioDen (exp : Int) : Nat := 2 ^ (-exp).toNat

/-- The greatest `l` with `2^l ≤ num / den`, for positive `num` and `den`. -/
def floorLog2 (num den : Nat) : Int :=
  let l : Int := (Nat.log2 num : Int) - (Nat.log2 den : Int)
  if den * 2 ^ l.toNat ≤ num * 2 ^ (-l).toNat then l else l - 1

/-- `num / den` to the nearest natural, ties to even. -/
def divNearestEven (num den : Nat) : Nat :=
  if den < 2 * (num % den) ∨ (2 * (num % den) = den ∧ num / den % 2 = 1) then num / den + 1
  else num / den

/-- The exponent of the unit in the last place that a format gives `num / den`. -/
def ulpExp (fmt : FloatFormat) (num den : Nat) : Int :=
  max (floorLog2 num den - ((fmt.prec : Int) - 1)) fmt.minExp

/-- A significand of one bit too many, which rounding up can produce, is renormalised; an exponent above the
format's is an infinity. -/
def normalise (fmt : FloatFormat) (neg : Bool) (mant : Nat) (exp : Int) : FloatVal :=
  if mant = 2 ^ fmt.prec then
    (if fmt.maxExp < exp + 1 then .inf neg else .fin neg (2 ^ (fmt.prec - 1)) (exp + 1))
  else if fmt.maxExp < exp then .inf neg
  else .fin neg mant exp

/-- The exact value `(-1)^neg · num / den` rounded to a format, to nearest with ties to even (R12). -/
def roundRatio (fmt : FloatFormat) (neg : Bool) (num den : Nat) : FloatVal :=
  if num = 0 then .fin neg 0 fmt.minExp
  else
    let e := ulpExp fmt num den
    normalise fmt neg (divNearestEven (num * 2 ^ (-e).toNat) (den * 2 ^ e.toNat)) e

/-- A value rounded to a format. -/
def roundTo (fmt : FloatFormat) : FloatVal → FloatVal
  | .nan => .nan
  | .inf neg => .inf neg
  | .fin neg mant exp => roundRatio fmt neg (ratioNum mant exp) (ratioDen exp)

/-- The IEEE 754 product in a format: NaN for a NaN operand and for infinity times zero. -/
def mulRounded (fmt : FloatFormat) : FloatVal → FloatVal → FloatVal
  | .fin s m e, .fin t n f => roundRatio fmt (s ^^ t) (ratioNum (m * n) (e + f)) (ratioDen (e + f))
  | .inf s, .inf t => .inf (s ^^ t)
  | .inf s, .fin t n _ => if n = 0 then .nan else .inf (s ^^ t)
  | .fin s m _, .inf t => if m = 0 then .nan else .inf (s ^^ t)
  | .nan, _ => .nan
  | _, .nan => .nan

/-- `trunc` of `(-1)^neg · mant · 2^exp`: toward zero (R12). -/
def truncToInt (neg : Bool) (mant : Nat) (exp : Int) : Int :=
  let q : Nat := ratioNum mant exp / ratioDen exp
  if neg then -(q : Int) else (q : Int)

/-- `VBYTE_B32` (R101): the binary32 product with 10.0, `trunc`, and the high byte of the 16-bit two's
complement; `none` is a draw. -/
def vbyteB32 (volts : B32) : Option Byte :=
  match mulRounded binary32 (unpack32 volts) (.fin false 10 0) with
  | .fin neg mant exp =>
    let t := truncToInt neg mant exp
    if -32768 ≤ t ∧ t ≤ 32767 then some ((BitVec.ofInt 16 t).extractLsb' 8 8) else none
  | .inf _ => none
  | .nan => none

/-- `TORQUE_SCALE` (R36). -/
def torqueScale : Nat := 100000

/-- `TORQUE_B64` (R162): `raw / 100000.0` in binary64, times the limit in binary64, then to binary32. -/
def torqueB64 (limit : B32) (raw : Word) : FloatVal :=
  let frac := roundRatio binary64 (raw.toInt < 0) raw.toInt.natAbs torqueScale
  roundTo binary32 (mulRounded binary64 (unpack32 limit) frac)

/-- The greatest integer not above `2^256 / π`, so that `invPiNum / 2^256` is `1/π` to 256 places. -/
def invPiNum : Nat :=
  36857766746113450950918049192879587303648982663873843352614131972887216513712

/-- The number of rotor codes in a full turn: 360 degrees times `ANGLE_SCALE` = 100000 (R36, R168). -/
def fullTurn : Nat := 36000000

/-- The greatest natural not above `mant · 2^exp · 18000000 / π`: the angle `mant · 2^exp` in units of the
rotor code, before the wrap (R168; that 256 places of `1/π` suffice for every binary32 is log entry 12). -/
def angleUnits (mant : Nat) (exp : Int) : Nat :=
  ratioNum mant exp * 18000000 * invPiNum / (2 ^ 256 * ratioDen exp)

/-- The rotor code of a finite angle (R168). Wrapping into a turn takes whole turns away from the exact
number of units, and a negative angle lies just below a multiple of the turn. -/
def angleCodeOf (neg : Bool) (mant : Nat) (exp : Int) : Nat :=
  if mant = 0 then 0
  else if neg then fullTurn - 1 - angleUnits mant exp % fullTurn
  else angleUnits mant exp % fullTurn

/-- `ANGLE_IDEAL` (R168); `none` is a draw. -/
def angleIdeal (theta : B32) : Option Word :=
  match unpack32 theta with
  | .fin neg mant exp => some (BitVec.ofNat 32 (angleCodeOf neg mant exp))
  | .inf _ => none
  | .nan => none

end Sys2Proof.Machine
end

