-- ==== Sys2Proof/Machine/Operands.lean ====
section
/-! DEFINITION. The operand forms: fields of a payload, big-endian assembly and serialisation (R61, R98 to
R100), the fields of a reply (R82, R92 to R97). -/

namespace Sys2Proof.Machine

/-- `BE32`: the first byte is the most significant (R9, R61). -/
def be32 (b0 b1 b2 b3 : Byte) : Word := b0 ++ b1 ++ b2 ++ b3

/-- `BE32BYTES`: the four bytes of a word, most significant first (R9). -/
def be32Bytes (v : Word) : List Byte :=
  [v.extractLsb' 24 8, v.extractLsb' 16 8, v.extractLsb' 8 8, v.extractLsb' 0 8]

/-- The first four bytes of a list as one big-endian word; `none` when there are fewer. Bytes beyond the
fourth are ignored (R62). -/
def leadingWord : List Byte → Option Word
  | b0 :: b1 :: b2 :: b3 :: _ => some (be32 b0 b1 b2 b3)
  | _ => none

/-- A clock operand as the `CLK_W` bits that hold it (R140). -/
def clockValue (p : Params) (now : Nat) : Nat := now % 2 ^ p.clkW

/-- `(a − b) mod 2^CLK_W`, the unsigned difference of two clock values (R231). -/
def clockDiff (p : Params) (a b : Nat) : Nat := (((a : Int) - (b : Int)) % ((2 ^ p.clkW : Nat) : Int)).toNat

/-- An error operand as the `ERR_W` bits that hold it, read as signed (R31, R126). -/
def errorValue (p : Params) (e : Int) : Int := Int.bmod e (2 ^ p.errW)

/-- The torque operand, `BE32(data[0..3])` of the whole payload, read as signed where it is used (R98). -/
def torqueOperand (payload : List Byte) : Option Word := leadingWord payload

/-- The request mask, `BE32(data[3..6])`: the leading word of the bytes after the short-buffer header (R99). -/
def maskOperand (rest : List Byte) : Option Word := leadingWord rest

/-- The identifier of a frame the block writes: `zext_29(tgt) | (zext_29(cmd) << 8)` (R82). -/
def replyIdent (tgt cmd : Byte) : Ident := tgt.setWidth 29 ||| (cmd.setWidth 29 <<< 8)

/-- The `PONG` reply (R93). -/
def pongFrame (node : Byte) : Frame := ⟨true, replyIdent node cmdPong, []⟩

/-- The `POLL_ROTOR_POS` reply (R94, R100). -/
def rotorFrame (node : Byte) (code : Word) : Frame :=
  ⟨true, replyIdent node cmdPollRotorPos, be32Bytes code⟩

/-- A short-buffer reply: addressed to `replyTo`, from `node`, the reserved byte 0, then the sub-command and
its fields (R106, R192). -/
def shortReply (replyTo node sub : Byte) (fields : List Byte) : Frame :=
  ⟨true, replyIdent replyTo cmdProcessShortBuffer, node :: 0x00#8 :: sub :: fields⟩

/-- The `FW_VERSION` reply (R95). -/
def fwVersionFrame (replyTo node major minor : Byte) : Frame :=
  shortReply replyTo node subFwVersion [major, minor]

/-- The mask bit that asks for the voltage, as it is echoed (R92, R103). -/
def maskVoltage : Word := 0x00000100

/-- The mask bit that asks for the status, as it is echoed (R92, R103). -/
def maskStatus : Word := 0x00008000

/-- A `GET_VALUES_SELECTIVE` reply: the one bit it answers, echoed, and the value (R96, R97, R103). -/
def valueFrame (replyTo node : Byte) (echoed : Word) (value : Byte) : Frame :=
  shortReply replyTo node subGetValuesSelective (be32Bytes echoed ++ [value])

end Sys2Proof.Machine
end

