-- ==== Sys2Proof/Machine/Flags.lean ====
section
/-! DEFINITION. The Boolean values the rules test (R34): the block has no condition codes. The acceptance
filter, the address predicate, the error flag, the mask bits and the watchdog comparator. -/

namespace Sys2Proof.Machine

/-- `Accept(f)`: frame type and masked identifier agree with the filter (R143). -/
def accepts (s : State) (f : Frame) : Bool :=
  f.ext == s.filtExt && (f.id &&& s.filtMask) == (s.filtId &&& s.filtMask)

/-- The address predicate, literally (R146): it reduces to `target ≠ 0` (R147). -/
def addrPass (node target : Byte) : Bool :=
  (target &&& node) != 0#8 || (target &&& 0xFF#8) != 0#8

/-- `ERROR ≠ 0` (R31, R34). -/
def errorFlag (e : Int) : Bool := e != 0

/-- Mask bit 8: the request asks for the voltage (R92, R99). -/
def asksVoltage (mask : Word) : Bool := mask.getLsbD 8

/-- Mask bit 15: the request asks for the status (R92, R99). -/
def asksStatus (mask : Word) : Bool := mask.getLsbD 15

/-- The status byte (R102). -/
def statusByte (e : Int) : Byte := if errorFlag e then 1 else 0

/-- `WD_TIMEOUT_US` (R36, R230). -/
def wdTimeoutUs : Nat := 900000

/-- `elapsed = (now − LAST_COMM) mod 2^CLK_W` (R231). -/
def elapsed (p : Params) (now last : Nat) : Nat := clockDiff p now last

/-- The watchdog fires: strictly more than 900000 µs, the motor enabled, remote control enabled (R232). -/
def watchdogFires (p : Params) (now last : Nat) (motorEnabled remoteEn : Bool) : Bool :=
  decide (wdTimeoutUs < elapsed p now last) && motorEnabled && remoteEn

end Sys2Proof.Machine
end

