-- ==== Sys2Proof/Machine/Ops.lean ====
section
/-! DEFINITION. The named operations the meanings are made of: refusals and drops (what this block has in
place of exceptions, R220), the host-call guard, transmission, motor actions, draws, the watchdog check, and
the checks a frame passes before it is routed. Each names its rule. -/

namespace Sys2Proof.Machine

/-- The mark of a refusal: `REFUSED <- 1` with its reason, never cleared, so the first reason stays (R40, R224). -/
def State.markRefused (r : RefuseReason) (s : State) : State :=
  { s with refused := match s.refused with | none => some r | some old => some old }

/-- `refuse(reason)`: the mark is the operation's only effect (R224). The block's one analogue of taking an
exception, with `dropFrame` beside it; there is no trap entry and no return (R228, R229). -/
def refuse (r : RefuseReason) (s : State) : Result := .next (s.markRefused r)

/-- The trace of a drop: its reason and the frame it dropped; nothing else changes (R221, R222). -/
def State.recordDrop (r : DropReason) (s : State) : State :=
  { s with drops := s.drops ++ [(r, s.rxf)] }

/-- `drop(reason)`: the frame is abandoned without effect (R222). -/
def dropFrame (r : DropReason) (s : State) : Result := .next (s.recordDrop r)

/-- A host operation acts only between `RUN`s; during one it is refused (R65, R223, R275). -/
def hostCall (s : State) (body : State → Result) : Result :=
  if s.phase = .idle then body s else refuse .hostOpDuringRun s

/-- One output event (R67). -/
def State.emit (o : Output) (s : State) : State := { s with out := s.out ++ [o] }

/-- A frame enters the receive queue (R240). -/
def State.queueFrame (f : Frame) (s : State) : State := { s with rxQueue := s.rxQueue ++ [f] }

/-- `TxWrite(f)` (R240): the frame is handed to the transport at once. A transport that loops back, once
started, also queues it for reception (R27, R28). -/
def State.txWrite (f : Frame) (s : State) : State :=
  if s.loopback && s.busStarted then (s.emit (.tx f)).queueFrame f else s.emit (.tx f)

/-- `Motor.enable()`: at once (R241). -/
def State.motorEnable (s : State) : State :=
  { s with motor := { s.motor with enabled := true }, out := s.out ++ [.motorEnable] }

/-- `Motor.disable()`: at once (R241). -/
def State.motorDisable (s : State) : State :=
  { s with motor := { s.motor with enabled := false }, out := s.out ++ [.motorDisable] }

/-- `Motor.target <- v` (R241). -/
def State.setTarget (v : B32) (s : State) : State :=
  { s with motor := { s.motor with target := v }, out := s.out ++ [.motorTarget v] }

/-- `n` free values have been drawn (R225). -/
def State.drew (n : Nat) (s : State) : State := { s with draws := s.draws + n }

/-- `WatchdogCheck(now)` (R232, R233): disable, then the diagnostic event; `LAST_COMM` stays. -/
def watchdogCheck (now : Nat) (s : State) : State :=
  if watchdogFires s.params now s.lastComm s.motor.enabled s.remoteEn then
    s.motorDisable.emit (.diag .wdTimeout)
  else s

/-- The clock value of the next `RUN` the outside world has listed, if it has listed one: `now_next` of R194
(log entry 11). -/
def nextRunNow : List Event → Option Nat
  | [] => none
  | .host w :: rest => if w.code = 0x6#4 then some w.now else nextRunNow rest
  | .rx _ :: rest => nextRunNow rest
  | .rxRemote _ _ _ :: rest => nextRunNow rest
  | .motor _ :: rest => nextRunNow rest
  | .tick :: rest => nextRunNow rest
  | .await :: rest => nextRunNow rest
  | .unending _ :: _ => none

/-- A fresh clock read (R194, `FRESH_READ`): the free offset `off` past `now`, kept within the time up to the
next `RUN` where that is known. -/
def freshStamp (p : Params) (now : Nat) (next : Option Nat) (off : Nat) : Nat :=
  match next with
  | none => clockValue p (now + off)
  | some nx => clockValue p (now + off % (clockDiff p nx now + 1))

/-- `LAST_COMM <- Stamp(now)` (R194). -/
def State.stamp (s : State) : State :=
  match s.params.refreshStamp with
  | .cycleNow => { s with lastComm := s.now }
  | .freshRead =>
    { s with
      lastComm := freshStamp s.params s.now (nextRunNow s.inputs) (Config.freeClock s.draws)
      draws := s.draws + 1 }

/-- The data bytes of a remote frame, each a draw (R85, R225). -/
def remoteBytes (first len : Nat) : List Byte :=
  (List.range len).map fun k => Config.freeByte (first + k)

/-- A frame reaches the transport: before the bus is started it is never received (R28, R122). -/
def receive (f : Frame) (s : State) : State :=
  if s.busStarted then s.queueFrame f else s

/-- A remote frame reaches the transport; it is received as a data frame of drawn bytes (R85). -/
def receiveRemote (ext : Bool) (id : Ident) (len : Nat) (s : State) : State :=
  receive ⟨ext, id, remoteBytes s.draws len⟩ (s.drew len)

/-- A `MOTOR` step sets the fields it names (R110, R241). -/
def Motor.apply (m : MotorStep) (old : Motor) : Motor where
  enabled := m.enabled.getD old.enabled
  target := m.target.getD old.target
  currentLimit := m.currentLimit.getD old.currentLimit
  shaftAngle := m.shaftAngle.getD old.shaftAngle

/-- What the checks before routing say of a frame. -/
inductive Screened where
  | refuse (r : RefuseReason)
  | drop (r : DropReason)
  | pass
deriving DecidableEq, Repr

/-- The checks of `ProcessFrame` before routing, in their order: length, acceptance filter, frame type,
address predicate (R142 to R146, R227). -/
def screenFrame (s : State) (f : Frame) : Screened :=
  if 8 < f.len then .refuse .rxLenGt8
  else if s.params.acceptFilter = .exact ∧ accepts s f = false then .drop .notAccepted
  else if f.ext = false then .drop .notExtended
  else if addrPass s.nodeAddr (targetId f.id) = false then .drop .address
  else .pass

end Sys2Proof.Machine
end

