-- ==== Sys2Proof/Machine/ShortBuffer.lean ====
section
/-! DEFINITION. The short-buffer sub-protocol (43_short_buffer.md). -/

namespace Sys2Proof.Machine

/-- `FwVersion(reply_to)` (R190): one reply, unconditionally. -/
def fwVersion (replyTo : Byte) (s : State) : State :=
  s.txWrite (fwVersionFrame replyTo s.nodeAddr s.params.fwMajor s.params.fwMinor)

/-- Side effect 1 of the request: the watchdog refresh, behind its gate (R193, R194). -/
def refreshWatchdog (s : State) : State :=
  if s.params.wdRefreshGated = false ∨ s.remoteEn = true then s.stamp else s

/-- Side effect 2 of the request: the enable quirk (R195). -/
def enableQuirk (s : State) : State :=
  if s.motor.enabled = false ∧ s.remoteEn = false then s.motorEnable else s

/-- The voltage byte (R101): `P_VBYTE_ARITH(VOLTAGE)`, and a draw where that gives none. -/
def voltageByte (s : State) : Option Byte :=
  match s.params.vbyteArith with
  | .default => vbyteB32 s.voltage
  | .implementation => Config.vbyteOther s.voltage

/-- The reply to mask bit 8 (R96, R197). -/
def voltageReply (replyTo : Byte) (s : State) : State :=
  match voltageByte s with
  | some b => s.txWrite (valueFrame replyTo s.nodeAddr maskVoltage b)
  | none => (s.txWrite (valueFrame replyTo s.nodeAddr maskVoltage (Config.freeByte s.draws))).drew 1

/-- The reply to mask bit 15 (R97, R198). -/
def statusReply (replyTo : Byte) (s : State) : State :=
  s.txWrite (valueFrame replyTo s.nodeAddr maskStatus (statusByte s.error))

/-- The replies a mask asks for: the voltage first, then the status (R196). -/
def answerMask (replyTo : Byte) (mask : Word) (s : State) : State :=
  let s := if asksVoltage mask then voltageReply replyTo s else s
  if asksStatus mask then statusReply replyTo s else s

/-- `GetValuesSelective` (R193): a short request is dropped before any side effect. -/
def getValuesSelective (replyTo : Byte) (rest : List Byte) (s : State) : Result :=
  match maskOperand rest with
  | none => dropFrame .gvsShort s
  | some mask => .next (answerMask replyTo mask (enableQuirk (refreshWatchdog s)))

/-- `SB_FW_VERSION` (R190). The reserved byte and `data[3..]` are not read (R106). -/
def execSbFwVersion (replyTo : Byte) (s : State) : Result := .next (fwVersion replyTo s)

/-- `SB_GET_VALUES_SELECTIVE` (R193). The reserved byte and `data[7]` are not read (R106). -/
def execSbGetValuesSelective (replyTo : Byte) (rest : List Byte) (s : State) : Result :=
  getValuesSelective replyTo rest s

end Sys2Proof.Machine
end

