-- ==== Sys2Proof/Machine/CanCommands.lean ====
section
/-! DEFINITION. The four CAN command handlers (42_can_commands.md), each reached by a frame that has passed
the acceptance filter, the frame-type check and the address predicate. -/

namespace Sys2Proof.Machine

/-- `Motor.target <- P_TORQUE_ARITH(Motor.current_limit, raw)` (R161, R162). Where the default gives a NaN, the
target is some NaN: its bits are a draw (log entry 7). -/
def driveTorque (raw : Word) (s : State) : State :=
  match s.params.torqueArith with
  | .implementation => s.setTarget (Config.torqueOther s.motor.currentLimit raw)
  | .default =>
    match pack32 (torqueB64 s.motor.currentLimit raw) with
    | some v => s.setTarget v
    | none => (s.setTarget (nanOf (Config.freeWord s.draws))).drew 1

/-- `SET_CURRENT_REL` (R161): the remote-enable gate comes before the length check. -/
def execSetCurrentRel (payload : List Byte) (s : State) : Result :=
  if s.remoteEn = false then dropFrame .scrRemoteDisabled s
  else
    match torqueOperand payload with
    | none => dropFrame .scrShort s
    | some raw => .next (driveTorque raw s)

/-- `PING` (R165): one `PONG`, whatever the payload. -/
def execPing (s : State) : Result := .next (s.txWrite (pongFrame s.nodeAddr))

/-- `P_ANGLE_CODE(θ)` (R168): a NaN or an infinity has no code under any reading (R225). -/
def rotorCode (s : State) : Option Word :=
  match angleIdeal s.motor.shaftAngle, s.params.angleCode with
  | none, _ => none
  | some code, .default => some code
  | some _, .implementation => some (Config.angleOther s.motor.shaftAngle)

/-- `POLL_ROTOR_POS` (R167): one reply; its code is a draw where the angle has none (R225). -/
def execPollRotorPos (s : State) : Result :=
  match rotorCode s with
  | some code => .next (s.txWrite (rotorFrame s.nodeAddr code))
  | none => .next ((s.txWrite (rotorFrame s.nodeAddr (Config.freeWord s.draws))).drew 1)

/-- `PROCESS_SHORT_BUFFER` (R170): delegate on `data[2]`. The reserved byte `data[1]` is not read. -/
def execProcessShortBuffer (payload : List Byte) (s : State) : Result :=
  match payload with
  | replyTo :: _ :: sub :: rest =>
    if sub = subFwVersion then .next (fwVersion replyTo s)
    else if sub = subGetValuesSelective then getValuesSelective replyTo rest s
    else dropFrame .sbUnknownSub s
  | _ => dropFrame .sbShort s

end Sys2Proof.Machine
end

