-- ==== Sys2Proof/Machine/Lifecycle.lean ====
section
/-! DEFINITION. The host operations other than `RUN` (40_lifecycle.md). Each acts only between `RUN`s. -/

namespace Sys2Proof.Machine

/-- `CONFIGURE tp, motor, addr, bitrate` (R120, R121). -/
def execConfigure (tp motor : Bool) (addr : Byte) (bitrate : Word) (s : State) : Result :=
  hostCall s fun s =>
    if s.lc ≠ .unconfigured then refuse .configureTwice s
    else .next { s with
      tpBound := tp
      motorBound := motor
      nodeAddr := addr
      bitrate := bitrate
      lc := .configured }

/-- `OPEN` (R122, R123): loopback off, the filter on the node's own address, then the transport starts. -/
def execOpenBus (s : State) : Result :=
  hostCall s fun s =>
    if s.lc = .unconfigured then refuse .openBeforeConfigure s
    else if s.lc = .opened then refuse .openTwice s
    else if s.tpBound = false then refuse .openUnboundTransport s
    else .next { s with
      loopback := false
      filtId := s.nodeAddr.setWidth 29
      filtMask := 0x000000FF#29
      filtExt := true
      busStarted := true
      lc := .opened }

/-- `SET_REMOTE_ENABLE b` (R124, R127). -/
def execSetRemoteEnable (b : Bool) (s : State) : Result :=
  hostCall s fun s => .next { s with remoteEn := b }

/-- `SET_VOLTAGE v`: any binary32 pattern, stored as it is (R125, R127). -/
def execSetVoltage (v : B32) (s : State) : Result :=
  hostCall s fun s => .next { s with voltage := v }

/-- `SET_ERROR e`: a signed integer of `ERR_W` bits (R126, R127). -/
def execSetError (e : Int) (s : State) : Result :=
  hostCall s fun s => .next { s with error := errorValue s.params e }

end Sys2Proof.Machine
end

