-- ==== Sys2Proof/Machine/RunCycle.lean ====
section
/-! DEFINITION. `RUN` (41_dispatch.md): the instruction makes the checks and the watchdog check and enters
the drain; the drain takes one step per frame (`Machine/Process.lean`), and the poll that finds the queue
empty ends the `RUN`. -/

namespace Sys2Proof.Machine

/-- The start of a `RUN`: its clock value, of `CLK_W` bits, is stored, and `PHASE` passes through `WD_CHECK`, where the
watchdog is checked, to `DRAIN` (R21, R140). -/
def startRun (now : Nat) (s : State) : State :=
  let now := clockValue s.params now
  { watchdogCheck now { s with phase := .wdCheck, now := now } with phase := .drain }

/-- `RUN now` (R140): a no-op with a collaborator unbound, refused before `OPEN`. -/
def execRun (now : Nat) (s : State) : Result :=
  hostCall s fun s =>
    if s.tpBound = false ∨ s.motorBound = false then .next s
    else if s.lc ≠ .opened then refuse .runBeforeOpen s
    else .next (startRun now s)

end Sys2Proof.Machine
end

