-- ==== Sys2Proof/Machine/Dispatch.lean ====
section
/-! DEFINITION. One arm per instruction. -/

namespace Sys2Proof.Machine

def exec (i : Instr) (s : State) : Host.Outcome State Fault Refusal :=
  match i with
  -- the received commands (R148)
  | .processShortBuffer _ payload => Sys2Proof.Machine.execProcessShortBuffer payload s
  | .setCurrentRel _ payload => Sys2Proof.Machine.execSetCurrentRel payload s
  | .ping _ _ => Sys2Proof.Machine.execPing s
  | .pollRotorPos _ _ => Sys2Proof.Machine.execPollRotorPos s
  -- the sub-commands of a short buffer (R170)
  | .sbFwVersion _ replyTo _ _ => Sys2Proof.Machine.execSbFwVersion replyTo s
  | .sbGetValuesSelective _ replyTo _ rest => Sys2Proof.Machine.execSbGetValuesSelective replyTo rest s
  -- the host operations (R111)
  | .configure tp motor addr bitrate => Sys2Proof.Machine.execConfigure tp motor addr bitrate s
  | .openBus => Sys2Proof.Machine.execOpenBus s
  | .setRemoteEnable b => Sys2Proof.Machine.execSetRemoteEnable b s
  | .setVoltage v => Sys2Proof.Machine.execSetVoltage v s
  | .setError e => Sys2Proof.Machine.execSetError e s
  | .run now => Sys2Proof.Machine.execRun now s

end Sys2Proof.Machine
end

