-- ==== Sys2Proof/Machine/Process.lean ====
section
/-! DEFINITION. The parts of a step: processing one frame (R142), the block's own step by `PHASE` (R141), a
host operation being issued, and the outside world's next event (log entry 10). -/

namespace Sys2Proof.Machine

/-- `ProcessFrame(f, now)` (R142): load `RXF`, make the checks, decode and run the handler. A frame that passes
the checks and is no instruction has an unknown command (R148). -/
def processFrame (f : Frame) (s : State) : Result :=
  let s := { s with rxf := f }
  match screenFrame s f with
  | .refuse r => refuse r s
  | .drop r => dropFrame r s
  | .pass =>
    match decodeFrame f with
    | .instr i => exec i s
    | .reject _ => dropFrame .unknownCommand s

/-- One round of the drain loop (R141): poll; with nothing queued the `RUN` ends, otherwise read the head frame
and process it. -/
def drainStep (s : State) : Result :=
  match s.rxQueue with
  | [] => .next { s with phase := .idle }
  | f :: q => processFrame f { s with rxQueue := q }

/-- The block's own next step. Between `RUN`s it does nothing (R245). `PHASE = WD_CHECK` lasts no step of its own
(`startRun` passes through it); a state that holds it makes the check and goes on. -/
def blockStep (s : State) : Result :=
  match s.phase with
  | .idle => .next s
  | .wdCheck => .next (startRun s.now s)
  | .drain => drainStep s

/-- A host operation is issued: a code that names none is refused (R111). -/
def hostStep (w : HostWord) (s : State) : Result :=
  match decodeHost w with
  | .instr i => exec i s
  | .reject _ => refuse .badHostOp s

/-- May a frame arrive now? Between `RUN`s always, during one under `P_RX_ARRIVALS = ALLOWED` (R66). -/
def mayArrive (s : State) : Bool :=
  s.phase == .idle || s.params.rxArrivals == .allowed

/-- The next arrival of a peer, and the peer after it (log entry 21). -/
def Peer.next : Peer → Option Frame × Peer
  | .repeats [] => (none, .repeats [])
  | .repeats (a :: arrivals) => (a, .repeats (arrivals ++ [a]))
  | .free n => (Config.freeArrival n, .free (n + 1))

/-- A step beside a peer whose frames do not stop arriving: its next frame, or the block's turn. Where no frame may
arrive the peer waits. Nothing makes the transport fair (R281). -/
def peerStep (p : Peer) (rest : List Event) (s : State) : Result :=
  if mayArrive s then
    match p.next.1 with
    | none => blockStep { s with inputs := .unending p.next.2 :: rest }
    | some f => .next (receive f { s with inputs := .unending p.next.2 :: rest })
  else blockStep s

/-- The outside world's next event, or the block's own step when there is none or it has to wait (log entry 10). -/
def nextStep (s : State) : Result :=
  match s.inputs with
  | [] => blockStep s
  | .host w :: rest => hostStep w { s with inputs := rest }
  | .rx f :: rest =>
    if mayArrive s then .next (receive f { s with inputs := rest }) else blockStep s
  | .rxRemote ext id len :: rest =>
    if mayArrive s then .next (receiveRemote ext id len { s with inputs := rest }) else blockStep s
  | .motor m :: rest =>
    if s.phase = .idle then .next { s with motor := s.motor.apply m, inputs := rest } else blockStep s
  | .tick :: rest => blockStep { s with inputs := rest }
  | .await :: rest => if s.phase = .idle then .next { s with inputs := rest } else blockStep s
  | .unending p :: rest => peerStep p rest s

/-- Ready to take the host operation `w` as the very next step. -/
def State.withHostOp (w : HostWord) (s : State) : State :=
  { s with refused := none, phase := .idle, inputs := .host w :: s.inputs }

/-- Ready to process the frame `f` as the very next step: in the drain of an opened node whose address is the
frame's target, with the frame at the head of the queue. -/
def State.withFrame (f : Frame) (s : State) : State :=
  { s with
    refused := none
    lc := .opened
    tpBound := true
    motorBound := true
    nodeAddr := targetId f.id
    filtId := (targetId f.id).setWidth 29
    filtMask := 0x000000FF#29
    filtExt := true
    loopback := false
    busStarted := true
    phase := .drain
    rxQueue := f :: s.rxQueue
    inputs := .tick :: s.inputs }

end Sys2Proof.Machine
end

