-- ==== Sys2Proof/Machine/Step.lean ====
section
/-! DEFINITION. One step of the machine, and placing an instruction where the next step fetches it. -/

namespace Sys2Proof.Machine

/-- One step. Once `REFUSED` is set the model has no meaning for what follows (R224). -/
def step (s : State) : Host.Outcome State Fault Refusal :=
  match s.refused with
  | some r => .refused (.contractBroken r)
  | none => nextStep s

/-- `s` with the instruction of a table word placed so that the very next step runs it (log entry 9). -/
def State.withFetchWord (s : State) (nbits w : Nat) : State :=
  match tableItem nbits w with
  | none => s
  | some (.host h) => s.withHostOp h
  | some (.frame f) => s.withFrame f

end Sys2Proof.Machine
end

