-- ==== Sys2Proof/Safety.lean ====
section
/-! DEFINITION. What a sound run is (R224), the invariant of the machine, the moments at which the outside
world lets the block go on, and the `RUN` transaction as the spec writes it (R140, R141). -/

namespace Sys2Proof.Machine

/-- No operation so far was used outside the contract: the premise of every claim about the block (R40, R224). -/
abbrev State.sound (s : State) : Prop := s.refused = none

/-- The invariant. `WD_CHECK` is passed through within a step; a `RUN` is in progress only on an opened node with
both collaborators bound (R140); the bus is started exactly when the node is opened (R28, R122); an opened node has
a bound transport, no loopback and its own address as the filter (R122); nothing is received before that (R28);
nothing is bound before `CONFIGURE` (R23); the clock values are of `CLK_W` bits (R32, R242) and the error code is a
signed integer of `ERR_W` bits (R31). -/
abbrev State.Inv (s : State) : Prop :=
  s.phase ≠ .wdCheck ∧
  (s.phase ≠ .idle → s.lc = .opened ∧ s.tpBound = true ∧ s.motorBound = true) ∧
  (s.busStarted = true ↔ s.lc = .opened) ∧
  (s.lc = .opened →
    s.tpBound = true ∧ s.loopback = false ∧ s.filtId = s.nodeAddr.setWidth 29 ∧
      s.filtMask = 0x000000FF#29 ∧ s.filtExt = true) ∧
  (s.lc ≠ .opened → s.rxQueue = []) ∧
  (s.lc = .unconfigured → s.tpBound = false ∧ s.motorBound = false) ∧
  (s.now < 2 ^ s.params.clkW ∧ s.lastComm < 2 ^ s.params.clkW) ∧
  (-((2 ^ s.params.errW : Nat) : Int) ≤ 2 * s.error ∧ 2 * s.error < ((2 ^ s.params.errW : Nat) : Int))

/-- During a `RUN`, the outside world leaves the next step to the block: it lists nothing, or what it lists next has
to wait for the end of the `RUN` (R66, R241). -/
def State.outsideWaits (s : State) : Bool :=
  match s.inputs with
  | [] => true
  | .host _ :: _ => false
  | .rx _ :: _ => s.params.rxArrivals == .none
  | .rxRemote _ _ _ :: _ => s.params.rxArrivals == .none
  | .motor _ :: _ => true
  | .tick :: _ => false
  | .await :: _ => true
  | .unending _ :: _ => s.params.rxArrivals == .none

/-- `DrainLoop` over the frames queued (R141): each is processed to completion, in order, then the `RUN` ends. -/
def drainAll : List Frame → State → Result
  | [], s => .next { s with phase := .idle }
  | f :: q, s =>
    match processFrame f { s with rxQueue := q } with
    | .next t => drainAll q t
    | .fault r => .fault r
    | .refused r => .refused r

/-- `RUN` as one transaction, as R140 writes it, when no frame arrives during it. -/
def runTransaction (now : Nat) (s : State) : Result :=
  if s.tpBound = false ∨ s.motorBound = false then .next s
  else if s.lc ≠ .opened then refuse .runBeforeOpen s
  else drainAll s.rxQueue (startRun now s)

/-- What `t` has sent beyond `s` goes to `replyTo` under command 8 and starts with the node's address, 0 and the
sub-command `sub`, as every short-buffer reply does (R192). -/
abbrev RepliesAddressed (s t : State) (replyTo sub : Byte) : Prop :=
  ∃ new, t.out = s.out ++ new ∧ ∀ g, .tx g ∈ new →
    g.id.extractLsb' 0 8 = replyTo ∧ g.id.extractLsb' 8 8 = 8#8 ∧ g.data[0]? = some s.nodeAddr ∧
    g.data[1]? = some 0x00#8 ∧ g.data[2]? = some sub

/-- Is it a `GET_VALUES_SELECTIVE` request, which reaches the handler by way of `PROCESS_SHORT_BUFFER` or by
its own row (R91, R92). -/
def asksValues : Instr → Bool
  | .processShortBuffer _ p => p[2]? == some 0x32#8
  | .setCurrentRel _ _ => false
  | .ping _ _ => false
  | .pollRotorPos _ _ => false
  | .sbFwVersion _ _ _ _ => false
  | .sbGetValuesSelective _ _ _ _ => true
  | .configure _ _ _ _ => false
  | .openBus => false
  | .setRemoteEnable _ => false
  | .setVoltage _ => false
  | .setError _ => false
  | .run _ => false

end Sys2Proof.Machine
end

