-- ==== Sys2Proof/Certificates/Slice0/Obligations.lean ====
section
/-! DEFINITION. The statements for the provers. Each docstring names the rule it formalises; where it rests on a
choice of the model it names the log entry. -/

open Sys2Proof Sys2Proof.Machine

/-! ### Encoding -/

/-- R80, R90, R91, R111: frames and host operations written out from the spec's tables decode to the instructions
they stand for; a standard frame, a 9-byte frame, a `PONG` and an unused host code are rejected by name. -/
def Obligations.WrittenWordsDecode : Prop :=
  decode (.frame ⟨true, 0x0000112A#29, []⟩) = .instr (.ping ⟨0, 0x2A⟩ []) ∧
  decode (.frame ⟨true, 0x1FFF112A#29, [1, 2]⟩) = .instr (.ping ⟨0x1FFF, 0x2A⟩ [1, 2]) ∧
  decode (.frame ⟨true, 0x0000382A#29, []⟩) = .instr (.pollRotorPos ⟨0, 0x2A⟩ []) ∧
  decode (.frame ⟨true, 0x00000A2A#29, [0x00, 0x00, 0xC3, 0x50]⟩) =
    .instr (.setCurrentRel ⟨0, 0x2A⟩ [0x00, 0x00, 0xC3, 0x50]) ∧
  decode (.frame ⟨true, 0x0000082A#29, [0x05, 0x00, 0x00]⟩) =
    .instr (.sbFwVersion ⟨0, 0x2A⟩ 0x05 0x00 []) ∧
  decode (.frame ⟨true, 0x0000082A#29, [0x05, 0x00, 0x32, 0x00, 0x00, 0x81, 0x00]⟩) =
    .instr (.sbGetValuesSelective ⟨0, 0x2A⟩ 0x05 0x00 [0x00, 0x00, 0x81, 0x00]) ∧
  decode (.frame ⟨true, 0x0000082A#29, [0x05, 0x00, 0x07]⟩) =
    .instr (.processShortBuffer ⟨0, 0x2A⟩ [0x05, 0x00, 0x07]) ∧
  decode (.host { code := 1, tp := true, motor := true, addr := 0x2A, bitrate := 500000 }) =
    .instr (.configure true true 0x2A 500000) ∧
  decode (.host { code := 6, now := 1000 }) = .instr (.run 1000) ∧
  decode (.frame ⟨false, 0x12A#29, []⟩) = .reject .notExtended ∧
  decode (.frame ⟨true, 0x0000112A#29, [0, 0, 0, 0, 0, 0, 0, 0, 0]⟩) = .reject .tooLong ∧
  decode (.frame ⟨true, 0x0000122A#29, []⟩) = .reject .unknownCommand ∧
  decode (.host { code := 7 }) = .reject .badHostOp

/-- R80, R87 to R92, R111: decoding what the encoder writes gives every well-formed instruction back, with every
operand at every value. -/
def Obligations.DecodeOfEncodeIsIdentity : Prop :=
  ∀ i : Instr, i.wf = true → decode (encode i) = .instr i

/-- R80, R86: no bit of a frame is dropped in decoding: encoding the decoded instruction gives the frame back, and
the instruction is a well-formed received command. -/
def Obligations.EncodeOfDecodedFrameIsIdentity : Prop :=
  ∀ (f : Frame) (i : Instr), decodeFrame f = .instr i →
    encode i = .frame f ∧ i.wf = true ∧ i.fromBus = true

/-- R9: `BE32` is the value whose first byte is the most significant, and `BE32BYTES` is its inverse. -/
def Obligations.BigEndianBytesAndWordAreInverse : Prop :=
  (∀ b0 b1 b2 b3 : Byte,
    (be32 b0 b1 b2 b3).toNat = b0.toNat * 2 ^ 24 + b1.toNat * 2 ^ 16 + b2.toNat * 2 ^ 8 + b3.toNat ∧
    be32Bytes (be32 b0 b1 b2 b3) = [b0, b1, b2, b3]) ∧
  (∀ v : Word, leadingWord (be32Bytes v) = some v)

/-- R111: the six host codes, each with the operands it reads, and the refusal of every other code. -/
def Obligations.HostCodesNameTheirOperations : Prop :=
  (∀ w : HostWord,
    (w.code = 1 → decodeHost w = .instr (.configure w.tp w.motor w.addr w.bitrate)) ∧
    (w.code = 2 → decodeHost w = .instr .openBus) ∧
    (w.code = 3 → decodeHost w = .instr (.setRemoteEnable w.enable)) ∧
    (w.code = 4 → decodeHost w = .instr (.setVoltage w.volts)) ∧
    (w.code = 5 → decodeHost w = .instr (.setError w.err)) ∧
    (w.code = 6 → decodeHost w = .instr (.run w.now))) ∧
  (∀ (s : State) (w : HostWord) (rest : List Event), s.sound → s.inputs = .host w :: rest →
    (w.code = 0 ∨ 7 ≤ w.code.toNat) →
    step s = .next { s with inputs := rest, refused := some .badHostOp })

/-- The opcode table's numbering (R86; log entry 9): whatever instruction the decoder reads from a table word, the
step after placing the word runs exactly it. -/
def Obligations.PlacedTableWordRunsNext : Prop :=
  ∀ (s : State) (nbits w : Nat) (i : Instr), decodeTableWord nbits w = some i →
    ∃ it, tableItem nbits w = some it ∧ decode it = .instr i ∧
      match it with
      | .host _ => step (s.withFetchWord nbits w) = exec i { s with refused := none, phase := .idle }
      | .frame f =>
        step (s.withFetchWord nbits w) =
          exec i { s.withFrame f with inputs := s.inputs, rxQueue := s.rxQueue, rxf := f }

/-! ### Steps -/

/-- R111, R65: a host operation at the head of what the outside world lists is decoded and run. -/
def Obligations.StepRunsHostOperation : Prop :=
  ∀ (s : State) (w : HostWord) (rest : List Event) (i : Instr), s.sound → s.inputs = .host w :: rest →
    decodeHost w = .instr i → step s = exec i { s with inputs := rest }

/-- R141, R142, R148: in the drain, the head frame, once past the checks, is decoded and run on the state with the
frame taken from the queue into `RXF`; the block steps when the outside world lists nothing, waits, or gives it
the turn, as a peer whose arrivals do not end may do too (log entries 10, 21). -/
def Obligations.StepRunsReceivedFrame : Prop :=
  ∀ (s : State) (f : Frame) (q : List Frame) (i : Instr), s.sound → s.phase = .drain → s.rxQueue = f :: q →
    screenFrame s f = .pass → decodeFrame f = .instr i →
    (s.outsideWaits = true → step s = exec i { s with rxQueue := q, rxf := f }) ∧
    (∀ rest, s.inputs = .tick :: rest → step s = exec i { s with inputs := rest, rxQueue := q, rxf := f }) ∧
    (∀ p rest, s.inputs = .unending p :: rest → s.params.rxArrivals = .allowed → p.next.1 = none →
      step s = exec i { s with inputs := .unending p.next.2 :: rest, rxQueue := q, rxf := f })

/-- R142, R143, R144, R146, R221, R227: the checks before routing, in their order, with the outcome of each. -/
def Obligations.FrameChecksRunInOrder : Prop :=
  ∀ (s : State) (f : Frame), s.sound →
    processFrame f s =
      if 8 < f.len then .next { s with rxf := f, refused := some .rxLenGt8 }
      else if s.params.acceptFilter = .exact ∧
          ¬ (f.ext = s.filtExt ∧ f.id &&& s.filtMask = s.filtId &&& s.filtMask) then
        .next { s with rxf := f, drops := s.drops ++ [(.notAccepted, f)] }
      else if f.ext = false then .next { s with rxf := f, drops := s.drops ++ [(.notExtended, f)] }
      else if f.id.extractLsb' 0 8 &&& s.nodeAddr = 0#8 ∧ f.id.extractLsb' 0 8 &&& 0xFF#8 = 0#8 then
        .next { s with rxf := f, drops := s.drops ++ [(.address, f)] }
      else
        match decodeFrame f with
        | .instr i => exec i { s with rxf := f }
        | .reject _ => .next { s with rxf := f, drops := s.drops ++ [(.unknownCommand, f)] }

/-- R104: a frame that passes the checks with an unlisted command id, `PONG` (18) among them, is dropped with no
output and no state change. -/
def Obligations.UnknownCommandIsDropped : Prop :=
  ∀ (s : State) (f : Frame), screenFrame s f = .pass →
    f.id.extractLsb' 8 8 ≠ 8#8 → f.id.extractLsb' 8 8 ≠ 10#8 → f.id.extractLsb' 8 8 ≠ 17#8 →
    f.id.extractLsb' 8 8 ≠ 56#8 →
    processFrame f s = .next { s with rxf := f, drops := s.drops ++ [(.unknownCommand, f)] }

/-- R143, from `OPEN` on: on an opened node the acceptance filter is `ext = 1` and `id[7:0] = NODE_ADDR`. That the
identifier bits above bit 7 are not compared, bits 28:16 among them, is the spec's own choice D31, marked by R143 as read
from the usual meaning of a mask (log entry 18). -/
def Obligations.OpenedFilterMatchesOwnAddress : Prop :=
  ∀ (s : State) (f : Frame), s.Inv → s.lc = .opened →
    (accepts s f = true ↔ f.ext = true ∧ f.id.extractLsb' 0 8 = s.nodeAddr)

/-- R147: the address predicate is `target ≠ 0` for every node address; under the exact filter every accepted frame
passes it, unless the node's own address is 0, and then none does; without the filter every nonzero target passes. -/
def Obligations.AddressPredicateConsequences : Prop :=
  (∀ node target : Byte, addrPass node target = true ↔ target ≠ 0) ∧
  (∀ (s : State) (f : Frame), s.Inv → s.lc = .opened → f.len ≤ 8 → s.params.acceptFilter = .exact →
    accepts s f = true →
    (s.nodeAddr ≠ 0 → screenFrame s f = .pass) ∧ (s.nodeAddr = 0 → screenFrame s f = .drop .address)) ∧
  (∀ (s : State) (f : Frame), s.lc = .opened → f.len ≤ 8 → s.params.acceptFilter = .none → f.ext = true →
    f.id.extractLsb' 0 8 ≠ 0 → screenFrame s f = .pass)

/-- R81, R106: on an opened node, identifier bits 28:16 and the reserved byte of a short buffer change nothing: two
frames that differ only there are processed alike, but for the copies of the frame itself. That the reserved byte of a
received short buffer is ignored, and that the filter does not compare bits 28:16, are the spec's own choices D13 and
D31 (log entry 18). -/
def Obligations.IgnoredFrameBitsChangeNothing : Prop :=
  ∀ (s : State) (f g : Frame), s.Inv → s.lc = .opened → f.ext = g.ext → f.len = g.len →
    f.id.extractLsb' 0 16 = g.id.extractLsb' 0 16 →
    (f.data = g.data ∨ (f.id.extractLsb' 8 8 = 8#8 ∧ ∀ k, k ≠ 1 → f.data[k]? = g.data[k]?)) →
    ∃ t, processFrame f s = .next t ∧
      ∃ ds, processFrame g s = .next { t with rxf := g, drops := ds } ∧ ds.map (·.1) = t.drops.map (·.1)

/-- R222: a drop leaves every register, the motor and the outputs as they were; only the model's trace grows. -/
def Obligations.DroppedFrameHasNoEffect : Prop :=
  ∀ (s t : State) (f : Frame), processFrame f s = .next t → t.drops ≠ s.drops →
    ∃ r, t = { s with rxf := f, drops := s.drops ++ [(r, f)] }

/-- R66, R28: where an arriving frame goes. Between `RUN`s, and during one when arrivals are allowed, it joins the
queue of a started bus; during a `RUN` without arrivals it waits and the block steps; an unstarted bus receives
nothing. Likewise each frame of a peer whose arrivals do not end, which stays in the list (log entries 10, 21). -/
def Obligations.ArrivingFramesJoinTheQueue : Prop :=
  ∀ (s : State) (f : Frame) (e : Event) (rest left : List Event), s.sound → s.inputs = e :: rest →
    (e = .rx f ∧ left = rest ∨ ∃ p, e = .unending p ∧ p.next.1 = some f ∧ left = .unending p.next.2 :: rest) →
    (s.phase = .idle ∨ s.params.rxArrivals = .allowed →
      (s.busStarted = true → step s = .next { s with inputs := left, rxQueue := s.rxQueue ++ [f] }) ∧
      (s.busStarted = false → step s = .next { s with inputs := left })) ∧
    (s.phase ≠ .idle → s.params.rxArrivals = .none → step s = blockStep s)

/-- R85: a remote frame arrives as a data frame of its length, whose bytes are draws (log entry 6), and goes where a
data frame would (R66, R28): between `RUN`s, and during one when arrivals are allowed, it joins the queue of a started
bus and is lost on an unstarted one; during a `RUN` without arrivals it waits and the block steps (log entry 10). -/
def Obligations.RemoteFrameIsReceivedAsData : Prop :=
  ∀ (s : State) (ext : Bool) (id : Ident) (len : Nat) (rest : List Event), s.sound →
    s.inputs = .rxRemote ext id len :: rest →
    (s.phase = .idle ∨ s.params.rxArrivals = .allowed →
      (s.busStarted = true → ∃ bytes : List Byte, bytes.length = len ∧
        step s = .next { s with
          inputs := rest, rxQueue := s.rxQueue ++ [⟨ext, id, bytes⟩], draws := s.draws + len }) ∧
      (s.busStarted = false → step s = .next { s with inputs := rest, draws := s.draws + len })) ∧
    (s.phase ≠ .idle → s.params.rxArrivals = .none → step s = blockStep s)

/-- R241: a `MOTOR` step between `RUN`s sets the fields it names; one listed during a `RUN` waits, whichever fields it
names, and the block steps (log entry 10); no step of a `RUN` in progress changes the motor's current limit or shaft
angle. -/
def Obligations.MotorInputsChangeOnlyBetweenRuns : Prop :=
  (∀ (s : State) (m : MotorStep) (rest : List Event), s.sound → s.inputs = .motor m :: rest →
    (s.phase = .idle →
      step s = .next { s with
        inputs := rest
        motor := {
          enabled := m.enabled.getD s.motor.enabled
          target := m.target.getD s.motor.target
          currentLimit := m.currentLimit.getD s.motor.currentLimit
          shaftAngle := m.shaftAngle.getD s.motor.shaftAngle } }) ∧
    (s.phase ≠ .idle → step s = blockStep s)) ∧
  (∀ s t : State, s.phase ≠ .idle → step s = .next t →
    t.motor.currentLimit = s.motor.currentLimit ∧ t.motor.shaftAngle = s.motor.shaftAngle)

/-- R245: between `RUN`s, with nothing happening outside, the block does nothing and keeps all its state. -/
def Obligations.IdleBlockKeepsItsState : Prop :=
  ∀ s : State, s.sound → s.phase = .idle → s.inputs = [] → step s = .next s

/-! ### Reset and the invariant -/

/-- R260, R6: the values at power-on that the rule states, whatever the parameters of the machine; those of `REMOTE_EN`,
`VOLTAGE` and `ERROR` are the spec's own decisions D7 and D8, and `LAST_COMM` is the parameter `LAST_COMM_INIT` as a
clock value (log entry 2). `State.reset` is the machine of the defaults: 32, 32 and 0. -/
def Obligations.PowerOnValues : Prop :=
  (∀ (p : Params) (s : State), s = State.powerOn p →
    s.params = p ∧ s.lc = .unconfigured ∧ s.tpBound = false ∧ s.motorBound = false ∧ s.busStarted = false ∧
    s.phase = .idle ∧ s.refused = none ∧ s.remoteEn = false ∧ s.voltage = 0 ∧ s.error = 0 ∧
    s.lastComm = p.lastCommInit % 2 ^ p.clkW) ∧
  State.reset = State.powerOn Config.defaults ∧
  Config.defaults.clkW = 32 ∧ Config.defaults.errW = 32 ∧ Config.defaults.lastCommInit = 0

/-- The invariant holds at power-on, whatever the parameters of the machine (R260). -/
def Obligations.InvariantHoldsAtPowerOn : Prop := State.reset.Inv ∧ ∀ p : Params, (State.powerOn p).Inv

/-- Every step keeps the invariant: the lifecycle, the bus, the filter, the loopback, the queue and the phase stay
consistent (R21, R22, R26, R27, R28, R122), and the clock values and the error code keep the width that the parameters
give them (R31, R32). -/
def Obligations.EveryStepKeepsInvariant : Prop :=
  ∀ s t : State, s.Inv → step s = .next t → t.Inv

/-- R220: every instruction answers a next state on every state; nothing faults and no instruction is unmodelled. -/
def Obligations.EveryInstructionAnswersNextState : Prop :=
  ∀ (i : Instr) (s : State), ∃ t, exec i s = .next t

/-- R40, R224: the mark of a refusal is never cleared by an instruction, and a marked machine gives no further
successor state (log entry 13). -/
def Obligations.RefusalMarkStays : Prop :=
  (∀ (i : Instr) (s t : State) (r : RefuseReason), s.refused = some r → exec i s = .next t →
    t.refused = some r) ∧
  (∀ (s : State) (r : RefuseReason), s.refused = some r → step s = .refused (.contractBroken r))

/-! ### Lifecycle and setters -/

/-- R120, R121: what `CONFIGURE` writes, and nothing else; the refusal of a second one. -/
def Obligations.ConfigureBindsAndStores : Prop :=
  ∀ (s : State) (tp motor : Bool) (addr : Byte) (bitrate : Word), s.phase = .idle →
    (s.lc = .unconfigured →
      exec (.configure tp motor addr bitrate) s =
        .next { s with
          tpBound := tp, motorBound := motor, nodeAddr := addr, bitrate := bitrate, lc := .configured }) ∧
    (s.lc ≠ .unconfigured → s.sound →
      exec (.configure tp motor addr bitrate) s = .next { s with refused := some .configureTwice })

/-- R122: what `OPEN` writes, and nothing else; its three refusals. -/
def Obligations.OpenInstallsFilterAndStarts : Prop :=
  ∀ s : State, s.phase = .idle →
    (s.lc = .configured → s.tpBound = true →
      exec .openBus s =
        .next { s with
          loopback := false, filtId := s.nodeAddr.setWidth 29, filtMask := 0x000000FF, filtExt := true
          busStarted := true, lc := .opened }) ∧
    (s.lc = .unconfigured → s.sound → exec .openBus s = .next { s with refused := some .openBeforeConfigure }) ∧
    (s.lc = .opened → s.sound → exec .openBus s = .next { s with refused := some .openTwice }) ∧
    (s.lc = .configured → s.tpBound = false → s.sound →
      exec .openBus s = .next { s with refused := some .openUnboundTransport })

/-- R124, R125, R126: each setter writes its own register, whatever the lifecycle state, and nothing else; the error
code is any signed integer of `ERR_W` bits. -/
def Obligations.SettersWriteTheirRegister : Prop :=
  ∀ (s : State) (b : Bool) (v : B32) (e : Int), s.phase = .idle →
    exec (.setRemoteEnable b) s = .next { s with remoteEn := b } ∧
    exec (.setVoltage v) s = .next { s with voltage := v } ∧
    (-(2 ^ s.params.errW) ≤ 2 * e ∧ 2 * e < 2 ^ s.params.errW →
      exec (.setError e) s = .next { s with error := e })

/-- R127: the setters are accepted in every lifecycle state, and no other instruction overwrites what they wrote. An
error code is stored as its low `ERR_W` bits, read as signed (log entry 3). -/
def Obligations.SetterValuesPersist : Prop :=
  (∀ (lc : Lifecycle) (s : State) (b : Bool) (v : B32) (e : Int), s.lc = lc → s.phase = .idle →
    (∃ t, exec (.setRemoteEnable b) s = .next t ∧ t.remoteEn = b ∧ t.refused = s.refused) ∧
    (∃ t, exec (.setVoltage v) s = .next t ∧ t.voltage = v ∧ t.refused = s.refused) ∧
    (∃ t, exec (.setError e) s = .next t ∧ t.error = Int.bmod e (2 ^ s.params.errW) ∧ t.refused = s.refused)) ∧
  (∀ (i : Instr) (s t : State), exec i s = .next t →
    (t.remoteEn = s.remoteEn ∨ i = .setRemoteEnable t.remoteEn) ∧
    (t.voltage = s.voltage ∨ i = .setVoltage t.voltage) ∧
    (t.error = s.error ∨ ∃ e, i = .setError e ∧ t.error = Int.bmod e (2 ^ s.params.errW)))

/-- R275: a host operation issued while a `RUN` is in progress is refused, whichever it is, and has no other effect. -/
def Obligations.HostOperationDuringRunIsRefused : Prop :=
  ∀ (i : Instr) (s : State), i.fromBus = false → s.phase ≠ .idle → s.sound →
    exec i s = .next { s with refused := some .hostOpDuringRun }

/-- R22: the lifecycle moves only from 0 to 1, by `CONFIGURE`, and from 1 to 2, by `OPEN`; its codes are 0, 1 and 2. -/
def Obligations.LifecycleOnlyMovesForward : Prop :=
  Lifecycle.unconfigured.code = 0 ∧ Lifecycle.configured.code = 1 ∧ Lifecycle.opened.code = 2 ∧
  ∀ (i : Instr) (s t : State), exec i s = .next t → t.lc ≠ s.lc →
    (s.lc = .unconfigured ∧ t.lc = .configured ∧ ∃ tp m a b, i = .configure tp m a b) ∨
    (s.lc = .configured ∧ t.lc = .opened ∧ i = .openBus)

/-- R24, R25, R26, R71: once configured, no step changes the node's identity, bit rate or bindings; once opened, none
changes the filter, the loopback or the started bus. -/
def Obligations.ConfigurationIsImmutable : Prop :=
  ∀ s t : State, step s = .next t →
    (s.lc ≠ .unconfigured →
      t.nodeAddr = s.nodeAddr ∧ t.bitrate = s.bitrate ∧ t.tpBound = s.tpBound ∧ t.motorBound = s.motorBound) ∧
    (s.lc = .opened →
      t.filtId = s.filtId ∧ t.filtMask = s.filtMask ∧ t.filtExt = s.filtExt ∧ t.loopback = s.loopback ∧
        t.busStarted = s.busStarted ∧ t.lc = .opened)

/-! ### RUN and the watchdog -/

/-- R140: `RUN` is a no-op with a collaborator unbound, and refused before `OPEN` with both bound. -/
def Obligations.RunNeedsBoundOpenedNode : Prop :=
  ∀ (s : State) (now : Nat), s.phase = .idle →
    ((s.tpBound = false ∨ s.motorBound = false) → exec (.run now) s = .next s) ∧
    (s.tpBound = true → s.motorBound = true → s.lc ≠ .opened → s.sound →
      exec (.run now) s = .next { s with refused := some .runBeforeOpen })

/-- R231, R232, R233: on a bound, opened node `RUN` checks the watchdog and enters the drain. The motor is disabled and
then the diagnostic event emitted exactly when the unsigned difference, modulo `2^CLK_W` whatever the width, is
strictly above 900000, the motor is enabled and remote control is enabled; `LAST_COMM` stays and no frame is sent. The
order of the two outputs is the spec's own choice D33 (log entry 18). A clock operand is stored as its low `CLK_W` bits
(log entry 3). -/
def Obligations.RunChecksWatchdogThenDrains : Prop :=
  ∀ (s : State) (now : Nat), s.phase = .idle → s.tpBound = true → s.motorBound = true → s.lc = .opened →
    exec (.run now) s =
      if 900000 < ((now : ℤ) - s.lastComm) % 2 ^ s.params.clkW ∧ s.motor.enabled = true ∧ s.remoteEn = true then
        .next { s with
          phase := .drain, now := now % 2 ^ s.params.clkW, motor := { s.motor with enabled := false }
          out := s.out ++ [.motorDisable, .diag .wdTimeout] }
      else .next { s with phase := .drain, now := now % 2 ^ s.params.clkW }

/-- R140, R141, R66: a `RUN` that is not refused and sees no arrival is one transaction: the watchdog check, then every
queued frame in order, each processed to completion, then idle. That the model takes one step for each frame is log
entry 10. -/
def Obligations.RunIsOneTransaction : Prop :=
  ∀ (s : State) (now : Nat), s.Inv → s.sound → s.phase = .idle →
    s.inputs = [.host { code := 6, now := now }] →
    (s.lc = .opened ∨ s.tpBound = false ∨ s.motorBound = false) → (∀ f ∈ s.rxQueue, f.len ≤ 8) →
    core.run (s.rxQueue.length + 2) s = runTransaction now { s with inputs := [] }

/-- R281, R66: a `RUN` in progress ends only at a poll that finds the queue empty. While nothing arrives, and beside any
peer under `NONE`, it ends after one step for each queued frame and one more. Under `ALLOWED` a peer can keep it from
ending: one whose every frame arrives before the block's next poll, whatever was queued, whatever the frame. R281 bounds
the frames; that each takes one step, and the empty poll one more, is the model's choice (log entry 10), and so is how a
peer is written (log entry 21). -/
def Obligations.RunEndsOnlyAtEmptyPoll : Prop :=
  (∀ s t : State, s.phase = .drain → step s = .next t → t.phase ≠ .drain →
    t.phase = .idle ∧ s.rxQueue = [] ∧ t.rxQueue = []) ∧
  (∀ s : State, s.Inv → s.sound → s.phase = .drain → s.outsideWaits = true → (∀ f ∈ s.rxQueue, f.len ≤ 8) →
    ∃ t, core.run (s.rxQueue.length + 1) s = .next t ∧ t.phase = .idle ∧ t.rxQueue = [] ∧ t.inputs = s.inputs) ∧
  (∀ (s : State) (f : Frame) (rest : List Event), s.Inv → s.sound → s.phase = .drain →
    s.params.rxArrivals = .allowed → s.inputs = .unending (.repeats [some f, none]) :: rest → f.len ≤ 8 →
    (∀ g ∈ s.rxQueue, g.len ≤ 8) →
    ∀ n : Nat, ∃ t, core.run n s = .next t ∧ t.sound ∧ t.phase = .drain)

/-- R237: with remote control disabled no step of the block disables the motor, whatever the elapsed time; only a
`MOTOR` step of the host can. -/
def Obligations.RemoteDisabledNeverStopsMotor : Prop :=
  ∀ s t : State, s.remoteEn = false → s.motor.enabled = true → (∀ m rest, s.inputs ≠ .motor m :: rest) →
    step s = .next t → t.motor.enabled = true

/-- R199, R195: an instruction turns the motor off only as the watchdog of a `RUN`, and on only as a request for values
in local mode. -/
def Obligations.MotorTransitionsHaveTheirCauses : Prop :=
  ∀ (i : Instr) (s t : State), exec i s = .next t →
    (s.motor.enabled = true → t.motor.enabled = false →
      s.remoteEn = true ∧
        ∃ now : Nat, i = .run now ∧ 900000 < ((now : ℤ) - s.lastComm) % 2 ^ s.params.clkW) ∧
    (s.motor.enabled = false → t.motor.enabled = true → s.remoteEn = false ∧ asksValues i = true)

/-- R234: only a request for values changes `LAST_COMM`; every other command and every host operation leaves it, and
so does every frame that is unknown or dropped. -/
def Obligations.OnlyValueRequestsRefreshWatchdog : Prop :=
  (∀ (i : Instr) (s t : State), exec i s = .next t → asksValues i = false → t.lastComm = s.lastComm) ∧
  (∀ (f : Frame) (s t : State), processFrame f s = .next t → t.lastComm ≠ s.lastComm →
    t.drops = s.drops ∧ ∃ i, decodeFrame f = .instr i ∧ asksValues i = true)

/-- R235, R236: a `RUN` whose watchdog fires disables the motor and emits the diagnostic event, in the order that is the
spec's own choice D33 of R233 (log entry 18), and leaves the motor disabled; running again before anything re-enables it
fires nothing; in remote mode no received command re-enables it, and no step but a `MOTOR` step of the host ends the
window or fires again in it. -/
def Obligations.WatchdogFiresOncePerWindow : Prop :=
  (∀ (s t : State) (now : Nat), exec (.run now) s = .next t → t.out ≠ s.out →
    t.out = s.out ++ [.motorDisable, .diag .wdTimeout] ∧ t.motor = { s.motor with enabled := false }) ∧
  (∀ (s : State) (now : Nat), s.motor.enabled = false → ∀ t, exec (.run now) s = .next t →
    t.out = s.out ∧ t.motor = s.motor) ∧
  (∀ (i : Instr) (s t : State), i.fromBus = true → s.remoteEn = true → exec i s = .next t →
    t.motor.enabled = s.motor.enabled) ∧
  (∀ s t : State, s.remoteEn = true → s.motor.enabled = false → (∀ m rest, s.inputs ≠ .motor m :: rest) →
    step s = .next t →
    t.motor.enabled = false ∧
      ∃ new, t.out = s.out ++ new ∧ .motorDisable ∉ new ∧ .diag .wdTimeout ∉ new)

/-! ### The received commands -/

/-- R165, R93: `PING` sends one `PONG` to the node's own address, whatever the payload, and writes no register. The
looped-back copy in the receive queue, which exists only where the transport loops back, is the model's choice (log
entry 16). -/
def Obligations.PingRepliesPong : Prop :=
  ∀ (s : State) (hdr : IdRest) (payload : List Byte),
    exec (.ping hdr payload) s =
      let f : Frame := ⟨true, s.nodeAddr.setWidth 29 ||| (18#29 <<< 8), []⟩
      .next { s with
        out := s.out ++ [.tx f]
        rxQueue := s.rxQueue ++ if s.loopback && s.busStarted then [f] else [] }

/-- R167, R94, R100: `POLL_ROTOR_POS` sends the code of the shaft angle, most significant byte first, under the node's
own address, which is the spec's own choice D9 (log entry 18). The code is the parameter's value for an angle that has
one, and a draw otherwise (R225; log entries 5, 6). Beside the frame, its looped-back copy where the transport loops
back (log entry 16) and the draw counter, nothing is written. -/
def Obligations.PollRepliesRotorCode : Prop :=
  ∀ (s : State) (hdr : IdRest) (payload : List Byte), ∃ (code : Word) (n : Nat),
    (∀ c, angleIdeal s.motor.shaftAngle = some c → n = 0 ∧
      (s.params.angleCode = .default → code = c) ∧
      (s.params.angleCode = .implementation → code = Config.angleOther s.motor.shaftAngle)) ∧
    (angleIdeal s.motor.shaftAngle = none → n = 1) ∧
    exec (.pollRotorPos hdr payload) s =
      let f : Frame := ⟨true, s.nodeAddr.setWidth 29 ||| (56#29 <<< 8),
        [code.extractLsb' 24 8, code.extractLsb' 16 8, code.extractLsb' 8 8, code.extractLsb' 0 8]⟩
      .next { s with
        out := s.out ++ [.tx f]
        rxQueue := s.rxQueue ++ if s.loopback && s.busStarted then [f] else []
        draws := s.draws + n }

/-- R161: `SET_CURRENT_REL` in remote mode with at least four bytes writes the target that the torque parameter gives
for the current limit and the signed big-endian operand, whether or not the motor is enabled, and nothing else but the
draw counter. Another torque arithmetic than the default is log entry 5, and that the bits of a NaN target are a draw is
log entry 7. The two drops, the gate's before the length's. -/
def Obligations.SetCurrentRelWritesTarget : Prop :=
  (∀ (s : State) (hdr : IdRest) (b0 b1 b2 b3 : Byte) (more : List Byte), s.remoteEn = true →
    ∃ (v : B32) (n : Nat),
      (s.params.torqueArith = .default →
        match pack32 (torqueB64 s.motor.currentLimit (be32 b0 b1 b2 b3)) with
        | some x => v = x ∧ n = 0
        | none => unpack32 v = .nan ∧ n = 1) ∧
      (s.params.torqueArith = .implementation →
        v = Config.torqueOther s.motor.currentLimit (be32 b0 b1 b2 b3) ∧ n = 0) ∧
      exec (.setCurrentRel hdr (b0 :: b1 :: b2 :: b3 :: more)) s =
        .next { s with
          motor := { s.motor with target := v }, out := s.out ++ [.motorTarget v], draws := s.draws + n }) ∧
  (∀ (s : State) (hdr : IdRest) (payload : List Byte), s.remoteEn = false →
    exec (.setCurrentRel hdr payload) s =
      .next { s with drops := s.drops ++ [(.scrRemoteDisabled, s.rxf)] }) ∧
  (∀ (s : State) (hdr : IdRest) (payload : List Byte), s.remoteEn = true → payload.length < 4 →
    exec (.setCurrentRel hdr payload) s = .next { s with drops := s.drops ++ [(.scrShort, s.rxf)] })

/-- R170: `PROCESS_SHORT_BUFFER` answers `FW_VERSION` itself when `data[2]` is 0, with the reply of R95 and R190, does
what the request for values does when it is 50, and drops every other short buffer, with the reason of each. The
looped-back copy of the reply, which exists only where the transport loops back, is the model's choice (log
entry 16). -/
def Obligations.ProcessShortBufferDelegates : Prop :=
  (∀ (s : State) (hdr : IdRest) (r x : Byte) (rest : List Byte),
    exec (.processShortBuffer hdr (r :: x :: 0#8 :: rest)) s =
      let f : Frame := ⟨true, r.setWidth 29 ||| (8#29 <<< 8),
        [s.nodeAddr, 0#8, 0#8, s.params.fwMajor, s.params.fwMinor]⟩
      .next { s with
        out := s.out ++ [.tx f]
        rxQueue := s.rxQueue ++ if s.loopback && s.busStarted then [f] else [] }) ∧
  (∀ (s : State) (hdr hdr' : IdRest) (r x x' : Byte) (rest : List Byte),
    exec (.processShortBuffer hdr (r :: x :: 50#8 :: rest)) s =
      exec (.sbGetValuesSelective hdr' r x' rest) s) ∧
  (∀ (s : State) (hdr : IdRest) (r x sub : Byte) (rest : List Byte), sub ≠ 0 → sub ≠ 50 →
    exec (.processShortBuffer hdr (r :: x :: sub :: rest)) s =
      .next { s with drops := s.drops ++ [(.sbUnknownSub, s.rxf)] }) ∧
  (∀ (s : State) (hdr : IdRest) (payload : List Byte), payload.length < 3 →
    exec (.processShortBuffer hdr payload) s = .next { s with drops := s.drops ++ [(.sbShort, s.rxf)] })

/-- R190, R95: `FW_VERSION` sends one five-byte short buffer to the requester, unconditionally, and writes no
register. The looped-back copy, which exists only where the transport loops back, is the model's choice (log
entry 16). -/
def Obligations.FwVersionRepliesConstants : Prop :=
  ∀ (s : State) (hdr : IdRest) (r x : Byte) (rest : List Byte),
    exec (.sbFwVersion hdr r x rest) s =
      let f : Frame := ⟨true, r.setWidth 29 ||| (8#29 <<< 8),
        [s.nodeAddr, 0#8, 0#8, s.params.fwMajor, s.params.fwMinor]⟩
      .next { s with
        out := s.out ++ [.tx f]
        rxQueue := s.rxQueue ++ if s.loopback && s.busStarted then [f] else [] }

/-- R193, R195, R196, R96, R97, R102: a request for values of seven bytes or more refreshes the watchdog behind its
gate, enables a disabled motor in local mode, then sends the voltage reply and the status reply that its mask asks for;
their identifier and their order are the spec's own choices D10 to D12 (log entry 18). Beside the frames' looped-back
copies where the transport loops back (log entry 16), nothing else is written but the draw counter: it advances by one
for a stamp that is a fresh read and by one for a voltage byte that is asked for and has no value (log entry 6). A
shorter request is dropped before any of it. -/
def Obligations.GetValuesSelectiveEffects : Prop :=
  (∀ (s : State) (hdr : IdRest) (r x m0 m1 m2 m3 : Byte) (more : List Byte),
    ∃ (stamp : Nat) (vbyte : Byte),
      let gate : Prop := s.params.wdRefreshGated = false ∨ s.remoteEn = true
      let quirk : Prop := s.motor.enabled = false ∧ s.remoteEn = false
      let volts : Prop := (be32 m0 m1 m2 m3).getLsbD 8 = true
      let status : Prop := (be32 m0 m1 m2 m3).getLsbD 15 = true
      let value : Option Byte :=
        match s.params.vbyteArith with
        | .default => vbyteB32 s.voltage
        | .implementation => Config.vbyteOther s.voltage
      let ident : Ident := r.setWidth 29 ||| (8#29 <<< 8)
      let fs : List Frame :=
        (if volts then [⟨true, ident, [s.nodeAddr, 0x00, 0x32, 0x00, 0x00, 0x01, 0x00, vbyte]⟩] else []) ++
        (if status then
          [⟨true, ident,
            [s.nodeAddr, 0x00, 0x32, 0x00, 0x00, 0x80, 0x00, if s.error = 0 then 0x00 else 0x01]⟩] else [])
      (s.params.refreshStamp = .cycleNow → stamp = s.now) ∧
      (∀ v, value = some v → vbyte = v) ∧
      exec (.sbGetValuesSelective hdr r x (m0 :: m1 :: m2 :: m3 :: more)) s =
        .next { s with
          lastComm := if gate then stamp else s.lastComm
          motor := if quirk then { s.motor with enabled := true } else s.motor
          out := s.out ++ (if quirk then [.motorEnable] else []) ++ fs.map .tx
          rxQueue := s.rxQueue ++ if s.loopback && s.busStarted then fs else []
          draws := s.draws + (if gate ∧ s.params.refreshStamp = .freshRead then 1 else 0) +
            (if volts ∧ value = none then 1 else 0) }) ∧
  (∀ (s : State) (hdr : IdRest) (r x : Byte) (rest : List Byte), rest.length < 4 →
    exec (.sbGetValuesSelective hdr r x rest) s =
      .next { s with drops := s.drops ++ [(.gvsShort, s.rxf)] })

/-- R195: a request for values calls `Motor.enable()`, before any reply, exactly when the motor is disabled in local
mode; in remote mode it never enables, and it changes nothing else of the motor. -/
def Obligations.LocalRequestEnablesMotor : Prop :=
  ∀ (s : State) (hdr : IdRest) (r x m0 m1 m2 m3 : Byte) (more : List Byte), ∃ (t : State) (new : List Output),
    exec (.sbGetValuesSelective hdr r x (m0 :: m1 :: m2 :: m3 :: more)) s = .next t ∧ t.out = s.out ++ new ∧
    (s.motor.enabled = false → s.remoteEn = false →
      t.motor = { s.motor with enabled := true } ∧ new.head? = some .motorEnable) ∧
    (s.motor.enabled = true ∨ s.remoteEn = true → t.motor = s.motor ∧ .motorEnable ∉ new)

/-- R102: a request with mask bit 15 sends the status reply, the one whose echoed mask is `00 00 80 00` (R103), and the
last of its eight bytes is 1 if `ERROR ≠ 0`, else 0. -/
def Obligations.StatusByteReportsError : Prop :=
  ∀ (s : State) (hdr : IdRest) (r x m0 m1 m2 m3 : Byte) (more : List Byte), (be32 m0 m1 m2 m3).getLsbD 15 = true →
    ∃ (t : State) (new : List Output),
      exec (.sbGetValuesSelective hdr r x (m0 :: m1 :: m2 :: m3 :: more)) s = .next t ∧ t.out = s.out ++ new ∧
      (∃ f, .tx f ∈ new ∧ (f.data.drop 3).take 4 = [0x00#8, 0x00#8, 0x80#8, 0x00#8]) ∧
      ∀ f, .tx f ∈ new → (f.data.drop 3).take 4 = [0x00#8, 0x00#8, 0x80#8, 0x00#8] →
        f.len = 8 ∧ (s.error ≠ 0 → f.data.getLast? = some 0x01#8) ∧ (s.error = 0 → f.data.getLast? = some 0x00#8)

/-- R107: of the mask only bits 8 and 15 matter, and a mask with neither sends nothing but still has the request's
side effects, the refresh behind its gate and the enable quirk. -/
def Obligations.OtherMaskBitsAreUnanswered : Prop :=
  (∀ (s : State) (hdr : IdRest) (r x m0 m1 m2 m3 k0 k1 k2 k3 : Byte) (more more' : List Byte),
    (be32 m0 m1 m2 m3).getLsbD 8 = (be32 k0 k1 k2 k3).getLsbD 8 →
    (be32 m0 m1 m2 m3).getLsbD 15 = (be32 k0 k1 k2 k3).getLsbD 15 →
    exec (.sbGetValuesSelective hdr r x (m0 :: m1 :: m2 :: m3 :: more)) s =
      exec (.sbGetValuesSelective hdr r x (k0 :: k1 :: k2 :: k3 :: more')) s) ∧
  (∀ (s : State) (hdr : IdRest) (r x m0 m1 m2 m3 : Byte) (more : List Byte),
    (be32 m0 m1 m2 m3).getLsbD 8 = false → (be32 m0 m1 m2 m3).getLsbD 15 = false →
    ∃ t, exec (.sbGetValuesSelective hdr r x (m0 :: m1 :: m2 :: m3 :: more)) s = .next t ∧
      (∀ f, .tx f ∈ t.out → .tx f ∈ s.out) ∧ t.rxQueue = s.rxQueue ∧
      (s.params.refreshStamp = .cycleNow → (s.params.wdRefreshGated = false ∨ s.remoteEn = true) →
        t.lastComm = s.now) ∧
      (s.motor.enabled = false → s.remoteEn = false → t.motor.enabled = true))

/-- R194: under `FRESH_READ` the stamp of an ungated refresh lies between `now` and the next `RUN`'s clock value, both
counted modulo `2^CLK_W` from `now`; the model reads the next `RUN` from what the outside world lists (log
entry 11). -/
def Obligations.FreshStampLiesBeforeNextRun : Prop :=
  ∀ (s : State) (hdr : IdRest) (r x m0 m1 m2 m3 : Byte) (more : List Byte) (nx : Nat),
    s.params.refreshStamp = .freshRead → (s.params.wdRefreshGated = false ∨ s.remoteEn = true) →
    nextRunNow s.inputs = some nx →
    ∃ t, exec (.sbGetValuesSelective hdr r x (m0 :: m1 :: m2 :: m3 :: more)) s = .next t ∧
      ((t.lastComm : ℤ) - s.now) % 2 ^ s.params.clkW ≤ ((nx : ℤ) - s.now) % 2 ^ s.params.clkW

/-- R82: every frame an instruction sends is extended, its identifier is a target byte and a command byte, its bits
28:16 are 0, and it has at most 8 data bytes; what was sent before stays sent. -/
def Obligations.TransmittedFramesAreComposed : Prop :=
  ∀ (i : Instr) (s t : State), exec i s = .next t →
    ∃ new, t.out = s.out ++ new ∧ ∀ f, .tx f ∈ new →
      f.ext = true ∧ f.len ≤ 8 ∧ f.id.extractLsb' 16 13 = 0#13 ∧
      ∃ tgt cmd : Byte, f.id = tgt.setWidth 29 ||| (cmd.setWidth 29 <<< 8)

/-- R192: every short-buffer reply goes to the requester under command 8 and starts with the node's address, 0 and the
request's sub-command, which is 0 or 50. For the replies to `GET_VALUES_SELECTIVE` the source gives the payload only:
their identifier, the requester and command 8, is the spec's own choice D10, as R192 says (log entry 18). Of any frame of command 8, however it is decoded and whatever the checks say
of it, and of each instruction that answers one. -/
def Obligations.ShortBufferRepliesAreAddressed : Prop :=
  (∀ (s t : State) (f : Frame), f.id.extractLsb' 8 8 = 8#8 → processFrame f s = .next t → t.out ≠ s.out →
    ∃ r sub : Byte, f.data[0]? = some r ∧ f.data[2]? = some sub ∧ (sub = 0 ∨ sub = 50) ∧ RepliesAddressed s t r sub) ∧
  (∀ (s t : State) (hdr : IdRest) (r x : Byte) (rest : List Byte), exec (.sbFwVersion hdr r x rest) s = .next t →
    RepliesAddressed s t r 0) ∧
  (∀ (s t : State) (hdr : IdRest) (r x : Byte) (rest : List Byte),
    exec (.sbGetValuesSelective hdr r x rest) s = .next t → RepliesAddressed s t r 50) ∧
  (∀ (s t : State) (hdr : IdRest) (r x sub : Byte) (rest : List Byte),
    exec (.processShortBuffer hdr (r :: x :: sub :: rest)) s = .next t → RepliesAddressed s t r sub)

/-- R166, R191: a second `PING`, and a second `FW_VERSION` with the same requester, sends the same frame again. -/
def Obligations.RepeatedQueriesReplyIdentically : Prop :=
  (∀ (s t u : State) (h h' : IdRest) (p p' : List Byte), exec (.ping h p) s = .next t →
    exec (.ping h' p') t = .next u → ∃ f, t.out = s.out ++ [.tx f] ∧ u.out = t.out ++ [.tx f]) ∧
  (∀ (s t u : State) (h h' : IdRest) (r x x' : Byte) (p p' : List Byte),
    exec (.sbFwVersion h r x p) s = .next t → exec (.sbFwVersion h' r x' p') t = .next u →
    ∃ f, t.out = s.out ++ [.tx f] ∧ u.out = t.out ++ [.tx f])

/-- R41: what received commands can write is `LAST_COMM` and `Motor.enabled`, by a request for values, and
`Motor.target`, by a torque command; the watchdog of a `RUN` can write only `Motor.enabled`; no received command and no
watchdog writes the configuration, the filter, the gate or the telemetry. -/
def Obligations.WritersAreConfined : Prop :=
  ∀ (i : Instr) (s t : State), exec i s = .next t →
    (i.fromBus = true ∨ ∃ now, i = .run now) →
    t.lc = s.lc ∧ t.tpBound = s.tpBound ∧ t.motorBound = s.motorBound ∧ t.nodeAddr = s.nodeAddr ∧
    t.bitrate = s.bitrate ∧ t.filtId = s.filtId ∧ t.filtMask = s.filtMask ∧ t.filtExt = s.filtExt ∧
    t.loopback = s.loopback ∧ t.busStarted = s.busStarted ∧ t.remoteEn = s.remoteEn ∧
    t.voltage = s.voltage ∧ t.error = s.error ∧ t.motor.currentLimit = s.motor.currentLimit ∧
    t.motor.shaftAngle = s.motor.shaftAngle ∧
    (t.lastComm ≠ s.lastComm → asksValues i = true) ∧
    (t.motor.target ≠ s.motor.target → ∃ hdr p, i = .setCurrentRel hdr p) ∧
    (t.motor.enabled ≠ s.motor.enabled → asksValues i = true ∨ ∃ now, i = .run now)

/-- R67: a step only appends to the outputs and to the model's traces, and never changes the parameters. -/
def Obligations.TracesOnlyGrow : Prop :=
  ∀ s t : State, step s = .next t →
    t.params = s.params ∧ s.out <+: t.out ∧ s.drops <+: t.drops ∧ s.draws ≤ t.draws

/-- R71: after `OPEN` the block's own frames never re-enter its receive queue: a step that is no arrival never adds to
the queue. -/
def Obligations.OwnFramesNeverReenter : Prop :=
  ∀ s t : State, s.Inv → s.lc = .opened → (∀ f rest, s.inputs ≠ .rx f :: rest) →
    (∀ e id n rest, s.inputs ≠ .rxRemote e id n :: rest) → (∀ p rest, s.inputs ≠ .unending p :: rest) →
    step s = .next t → t.rxQueue <:+ s.rxQueue

/-! ### Arithmetic -/

/-- R12: rounding is to the nearest value of the format, and to an even significand in the middle of two. A ratio from
half a unit above the format's greatest value on gives an infinity, as IEEE 754 has it; every other positive ratio
gives a significand and an exponent within the format, such that no value of the format's precision lies closer to the
exact ratio, and another value as close leaves the result's significand even; zero gives zero. -/
def Obligations.RoundingIsToNearestEven : Prop :=
  ∀ (fmt : FloatFormat) (neg : Bool) (num den : Nat), 2 ≤ fmt.prec → fmt.minExp ≤ fmt.maxExp → 0 < den →
    (num = 0 → roundRatio fmt neg num den = .fin neg 0 fmt.minExp) ∧
    (((2 : ℚ) ^ fmt.prec - 1 / 2) * 2 ^ fmt.maxExp ≤ (num : ℚ) / den → roundRatio fmt neg num den = .inf neg) ∧
    (0 < num → (num : ℚ) / den < ((2 : ℚ) ^ fmt.prec - 1 / 2) * 2 ^ fmt.maxExp →
      ∃ (m : Nat) (e : Int), roundRatio fmt neg num den = .fin neg m e ∧
        m < 2 ^ fmt.prec ∧ fmt.minExp ≤ e ∧ e ≤ fmt.maxExp ∧
        ∀ (m' : Nat) (e' : Int), m' < 2 ^ fmt.prec → fmt.minExp ≤ e' →
          |(num : ℚ) / den - m * 2 ^ e| ≤ |(num : ℚ) / den - m' * 2 ^ e'| ∧
          (|(num : ℚ) / den - m * 2 ^ e| = |(num : ℚ) / den - m' * 2 ^ e'| → (m' : ℚ) * 2 ^ e' ≠ m * 2 ^ e →
            m % 2 = 0))

/-- R162: under the default, the operand 100000 gives back every finite current limit exactly, and −100000 its
negation. -/
def Obligations.FullTorqueIsTheCurrentLimit : Prop :=
  ∀ (limit : B32) (neg : Bool) (m : Nat) (e : Int), unpack32 limit = .fin neg m e →
    pack32 (torqueB64 limit 100000#32) = some limit ∧
    pack32 (torqueB64 limit (-100000#32)) = some (limit ^^^ 0x80000000#32)

/-- R162: the special values of the default: a NaN limit gives NaN; an infinite limit gives an infinity of the
product's sign for a nonzero operand and NaN for zero. -/
def Obligations.TorqueOfSpecialLimits : Prop :=
  (∀ (limit : B32) (raw : Word), unpack32 limit = .nan → torqueB64 limit raw = .nan) ∧
  (∀ (limit : B32) (raw : Word) (neg : Bool), unpack32 limit = .inf neg → raw ≠ 0 →
    torqueB64 limit raw = .inf (neg ^^ decide (raw.toInt < 0))) ∧
  (∀ (limit : B32) (neg : Bool), unpack32 limit = .inf neg → torqueB64 limit 0 = .nan)

/-- R168: `ANGLE_IDEAL` in exact real arithmetic. For every finite angle θ the code is
`trunc((θ − 2π·⌊θ/2π⌋) · 180/π · 100000)`, where the wrapped angle lies in `[0, 2π)`; a NaN or an infinity has none. -/
def Obligations.RotorCodeIsExactInRealArithmetic : Prop :=
  (∀ (theta : B32) (neg : Bool) (m : Nat) (e : Int), unpack32 theta = .fin neg m e →
    ∃ code : Word, angleIdeal theta = some code ∧
      let x : ℝ := (if neg then -1 else 1) * (m * 2 ^ e)
      let w : ℝ := x - 2 * Real.pi * ⌊x / (2 * Real.pi)⌋
      let deg : ℝ := w * 180 / Real.pi
      0 ≤ w ∧ w < 2 * Real.pi ∧ (code.toNat : ℤ) = ⌊deg * 100000⌋) ∧
  (∀ theta : B32, (∀ neg m e, unpack32 theta ≠ .fin neg m e) → angleIdeal theta = none)

/-- R169 (b), of `ANGLE_IDEAL`, the default `P_ANGLE_CODE`: its code of a finite angle is at most 35999999, so the first
of the code's four bytes is 0, 1 or 2. A code of another `P_ANGLE_CODE`, or a draw, is not bounded (log entries 5, 6). -/
def Obligations.RotorCodeRange : Prop :=
  ∀ (theta : B32) (code : Word), angleIdeal theta = some code →
    code.toNat ≤ 35999999 ∧ ((be32Bytes code)[0]? = some 0 ∨ (be32Bytes code)[0]? = some 1 ∨
      (be32Bytes code)[0]? = some 2)

/-- R101, under the default `VBYTE_B32` (D21): the voltage byte is a draw exactly for a NaN, an infinity, or a binary32
product that truncates outside [−32768, 32767]; otherwise it is the high byte of the 16-bit two's complement of the
truncated product, which is the truncated product divided by 256, rounded down, modulo 256. Another `P_VBYTE_ARITH` is
log entry 5. -/
def Obligations.VoltageByteIsHighByteOfDecivolts : Prop :=
  ∀ v : B32,
    match mulRounded binary32 (unpack32 v) (.fin false 10 0) with
    | .fin neg m e =>
      let t : Int := if neg then -⌊(m : ℚ) * 2 ^ e⌋ else ⌊(m : ℚ) * 2 ^ e⌋
      if -32768 ≤ t ∧ t ≤ 32767 then
        ∃ b : Byte, vbyteB32 v = some b ∧ (b.toNat : Int) = t / 256 % 256
      else vbyteB32 v = none
    | _ => vbyteB32 v = none
end

