-- ==== Sys2Proof/Laws/Angle.lean ====
section
/-! SUPPORT. The rotor code is exact: 256 places of `1/π` decide the integer part for every binary32 angle
(R168; log entry 12). First `1/π` between two neighbouring fractions of denominator `2^256`, by Machin's formula;
then, per exponent, a pair of neighbouring Farey fractions that shows no integer lies between the two products. -/

namespace Sys2Proof.Machine

open Real Filter Topology

/-! ### Bounds on π -/

/-- The partial sum of the arctangent series at `1/q`, as a rational number. -/
def atanSum (q : Nat) : Nat → ℚ
  | 0 => 0
  | n + 1 => atanSum q n + (-1) ^ n * (((1 : ℚ) / q) ^ (2 * n + 1) / (2 * n + 1))

theorem atanSum_cast (q n : Nat) :
    ((atanSum q n : ℚ) : ℝ) =
      ∑ i ∈ Finset.range n, (-1) ^ i * (((1 : ℝ) / q) ^ (2 * i + 1) / ((2 * i + 1 : ℕ) : ℝ)) := by
  induction n with
  | zero => simp [atanSum]
  | succ n ih => rw [atanSum, Finset.sum_range_succ, ← ih]; push_cast; ring

theorem atan_terms_antitone (q : Nat) (hq : 2 ≤ q) :
    Antitone fun i : ℕ => ((1 : ℝ) / q) ^ (2 * i + 1) / ((2 * i + 1 : ℕ) : ℝ) := by
  intro i j hij
  have hq' : (1 : ℝ) ≤ q := by exact_mod_cast (by omega : 1 ≤ q)
  have h1 : (1 : ℝ) / q ≤ 1 := by rw [div_le_one (by linarith)]; exact hq'
  exact div_le_div₀ (by positivity) (pow_le_pow_of_le_one (by positivity) h1 (by omega))
    (by positivity) (by exact_mod_cast (by omega : 2 * i + 1 ≤ 2 * j + 1))

theorem atan_series (q : Nat) (hq : 2 ≤ q) :
    Tendsto (fun n => ∑ i ∈ Finset.range n, (-1) ^ i * (((1 : ℝ) / q) ^ (2 * i + 1) / ((2 * i + 1 : ℕ) : ℝ)))
      atTop (𝓝 (arctan (1 / q))) := by
  have hq' : (1 : ℝ) < q := by exact_mod_cast (by omega : 1 < q)
  have hx : ‖(1 : ℝ) / q‖ < 1 := by
    rw [Real.norm_of_nonneg (by positivity), div_lt_one (by linarith)]; exact hq'
  refine ((Real.hasSum_arctan hx).tendsto_sum_nat).congr fun n => Finset.sum_congr rfl fun i _ => ?_
  rw [mul_div_assoc]

theorem atanSum_le (q : Nat) (hq : 2 ≤ q) (k : Nat) : ((atanSum q (2 * k) : ℚ) : ℝ) ≤ arctan (1 / q) := by
  rw [atanSum_cast]; exact (atan_terms_antitone q hq).alternating_series_le_tendsto (atan_series q hq) k

theorem le_atanSum (q : Nat) (hq : 2 ≤ q) (k : Nat) : arctan (1 / q) ≤ ((atanSum q (2 * k + 1) : ℚ) : ℝ) := by
  rw [atanSum_cast]; exact (atan_terms_antitone q hq).tendsto_le_alternating_series (atan_series q hq) k

theorem machin : π = 16 * arctan (1 / (5 : ℕ)) - 4 * arctan (1 / (239 : ℕ)) := by
  have h := Real.four_mul_arctan_inv_5_sub_arctan_inv_239
  simp only [← one_div] at h
  push_cast; linarith

theorem invPiNum_pos : 0 < invPiNum := by decide +kernel

/-- `2^256 / (invPiNum + 1) < π`, through rational partial sums. -/
theorem pi_gt : (2 : ℝ) ^ 256 / (invPiNum + 1) < π := by
  have h : (2 : ℚ) ^ 256 / (invPiNum + 1) < 16 * atanSum 5 (2 * 29) - 4 * atanSum 239 (2 * 9 + 1) := by
    decide +kernel
  have h' : ((2 : ℝ) ^ 256 / (invPiNum + 1)) <
      16 * ((atanSum 5 (2 * 29) : ℚ) : ℝ) - 4 * ((atanSum 239 (2 * 9 + 1) : ℚ) : ℝ) := by
    have := (Rat.cast_lt (K := ℝ)).2 h; push_cast at this; exact this
  have h5 := atanSum_le 5 (by norm_num) 29
  have h239 := le_atanSum 239 (by norm_num) 9
  rw [machin]; linarith

/-- `π < 2^256 / invPiNum`, through rational partial sums. -/
theorem pi_lt : π < (2 : ℝ) ^ 256 / invPiNum := by
  have h : 16 * atanSum 5 (2 * 29 + 1) - 4 * atanSum 239 (2 * 9) < (2 : ℚ) ^ 256 / invPiNum := by
    decide +kernel
  have h' : 16 * ((atanSum 5 (2 * 29 + 1) : ℚ) : ℝ) - 4 * ((atanSum 239 (2 * 9) : ℚ) : ℝ) <
      (2 : ℝ) ^ 256 / invPiNum := by
    have := (Rat.cast_lt (K := ℝ)).2 h; push_cast at this; exact this
  have h5 := le_atanSum 5 (by norm_num) 29
  have h239 := atanSum_le 239 (by norm_num) 9
  rw [machin]; linarith

/-! ### No integer lies between the two products -/

/-- The units of the code in a step of one in the last place, over `unitDen` (R168). -/
def unitNum (exp : Int) : Nat := ratioNum 1 exp * 18000000

/-- The common denominator of the two bounds. -/
def unitDen (exp : Int) : Nat := 2 ^ 256 * ratioDen exp

/-- Denominators of neighbouring Farey fractions around `2^exp · 18000000 / π`, for exponents from -46 on. -/
def farey0 : List (Nat × Nat) := [
  (12281663, 12281662), (12281663, 6140831), (21492910, 9211247), (19957702, 9211247), (9978851, 9211247),
  (9978851, 9595049), (9978851, 9786950), (9978851, 14872326), (17415014, 7436163), (8707507, 16143670),
  (16779342, 8071835), (24533341, 8071835), (16302588, 8071835), (8151294, 24374423), (4075647, 20298776),
  (14225035, 10149388), (14225035, 5074694), (16762382, 2537347), (8381191, 19299729), (8381191, 13840460)]
def farey1 : List (Nat × Nat) := [
  (22221651, 6920230), (18761536, 3460115), (12840883, 16300998), (20991382, 8150499), (18646190, 8150499),
  (9323095, 8150499), (9323095, 8736797), (9323095, 9029946), (13838068, 4514973), (6919034, 18353041),
  (3459517, 18353041), (3459517, 17825313), (3459517, 14101932), (17561449, 7050966), (17561449, 3525483),
  (17594432, 3525483), (19373665, 3525483), (18500540, 3525483), (16301236, 3525483), (8150618, 19826719)]
def farey2 : List (Nat × Nat) := [
  (4075309, 19826719), (4075309, 20101632), (4075309, 14126125), (9100717, 23226842), (9100717, 11613421),
  (10357069, 11613421), (10985245, 22598666), (10985245, 11299333), (11142289, 22441622), (11142289, 22363100),
  (11142289, 22323839), (11142289, 16733064), (19508821, 8366532), (19508821, 4183266), (17417188, 2091633),
  (17075126, 2091633), (16904095, 2091633), (17864396, 2091633), (17298730, 2091633), (17015897, 2091633)]
def farey3 : List (Nat × Nat) := [
  (11645398, 13737031), (5822699, 13737031), (9779865, 13737031), (11758448, 25495479), (5879224, 19616255),
  (2939612, 19616255), (1469806, 18146449), (734903, 17411546), (734903, 16789706), (18994415, 9129756),
  (18994415, 4564878), (18994415, 2282439), (17485744, 2282439), (15590189, 2282439), (15590189, 8936314),
  (15590189, 4468157), (25619362, 10029173), (22838854, 10029173), (11419427, 10029173), (22143727, 10724300)]
def farey4 : List (Nat × Nat) := [
  (16781577, 5362150), (16781577, 2681075), (17774551, 2681075), (18271038, 2681075), (17178744, 2681075),
  (19313672, 2681075), (9656836, 21994747), (4828418, 17166329), (2414209, 17166329), (2414209, 17032896),
  (13344866, 10930657), (6672433, 17603090), (6672433, 15473978), (22146411, 7736989), (14941700, 7736989),
  (7470850, 22678689), (3735425, 18943264), (3735425, 13207057), (8471241, 21678298), (8471241, 19310390)]
def farey5 : List (Nat × Nat) := [
  (8471241, 18126436), (8471241, 9063218), (17534459, 4531609), (20096252, 4531609), (19111344, 4531609),
  (18618890, 4531609), (9309445, 13841054), (23150499, 6920527), (15035513, 6920527), (26013533, 10978020),
  (20524523, 5489010), (17780018, 2744505), (17123524, 2744505), (16795277, 2744505), (15258901, 2744505),
  (24260604, 9001703), (12130302, 9001703), (6065151, 21132005), (6065151, 19663729), (6065151, 12864440)]
def farey6 : List (Nat × Nat) := [
  (18929591, 6432220), (18929591, 3216110), (17321536, 1608055), (10268823, 11876878), (22145701, 5938439),
  (19980509, 5938439), (18897913, 5938439), (6479737, 12418176), (18897913, 6209088), (18897913, 3104544),
  (17345641, 1552272), (17345641, 776136), (16957573, 388068), (16957573, 194034), (16860556, 97017),
  (10661669, 21420355), (10661669, 16041012), (18682175, 8020506), (18682175, 4010253), (19366720, 4010253)]
def farey7 : List (Nat × Nat) := [
  (17703866, 4010253), (12862186, 4010253), (6431093, 16872439), (11651766, 5220673), (5825883, 16872439),
  (5825883, 17175044), (5825883, 20239288), (15945527, 10119644), (15945527, 5059822), (15945527, 2529911),
  (25183246, 9237719)]

def farey : List (Nat × Nat) :=
  farey0 ++ farey1 ++ farey2 ++ farey3 ++ farey4 ++ farey5 ++ farey6 ++ farey7

/-- The pair for an exponent; below -46 the bounds lie between 0 and `1 / 2^24`. -/
def fareyPair (exp : Int) : Nat × Nat :=
  if exp < -46 then (1, 2 ^ 24) else farey.getD (exp + 46).toNat (0, 0)

/-- The pair's fractions are neighbours, enclose both bounds, and leave no smaller denominator between them. -/
def fareyCheck (exp : Int) (b d : Nat) : Bool :=
  let a := b * unitNum exp * invPiNum / unitDen exp
  let c := d * unitNum exp * (invPiNum + 1) / unitDen exp + 1
  decide (c * b = a * d + 1) && decide (2 ^ 24 ≤ b + d)

theorem fareyCheck_all :
    ∀ k : Nat, k < 254 → fareyCheck ((k : Int) - 149) (fareyPair ((k : Int) - 149)).1 (fareyPair ((k : Int) - 149)).2 = true := by
  decide +kernel

/-- The Farey argument: between neighbouring fractions `a / b` and `c / d` there is no fraction of denominator
below `b + d`; so a multiple of `B` up to the upper bound is one up to the lower bound. -/
theorem farey_gap {a b c d m n A B P : Nat} (hm : 0 < m) (hmb : m < b + d)
    (hdet : c * b = a * d + 1) (ha : a * B ≤ b * A * P) (hc : d * A * (P + 1) < c * B) (hb : 0 < b)
    (hn : n * B ≤ m * A * (P + 1)) : n * B ≤ m * A * P := by
  by_contra hlt
  have hl : m * a < n * b := by
    refine Nat.lt_of_mul_lt_mul_right (a := B) ?_
    calc m * a * B = m * (a * B) := by ring
      _ ≤ m * (b * A * P) := Nat.mul_le_mul_left _ ha
      _ = b * (m * A * P) := by ring
      _ < b * (n * B) := Nat.mul_lt_mul_of_pos_left (by omega) hb
      _ = n * b * B := by ring
  have hr : n * d < m * c := by
    refine Nat.lt_of_mul_lt_mul_right (a := B) ?_
    calc n * d * B = d * (n * B) := by ring
      _ ≤ d * (m * A * (P + 1)) := Nat.mul_le_mul_left _ hn
      _ = m * (d * A * (P + 1)) := by ring
      _ < m * (c * B) := Nat.mul_lt_mul_of_pos_left hc hm
      _ = m * c * B := by ring
  have e1 : d * (m * a + 1) ≤ d * (n * b) := Nat.mul_le_mul_left _ hl
  have e2 : b * (n * d + 1) ≤ b * (m * c) := Nat.mul_le_mul_left _ hr
  have e3 : m * (c * b) = m * (a * d + 1) := by rw [hdet]
  nlinarith

/-- What the check says, as propositions. -/
theorem fareyCheck_spec {exp : Int} {b d : Nat} (h : fareyCheck exp b d = true) :
    (d * unitNum exp * (invPiNum + 1) / unitDen exp + 1) * b = b * unitNum exp * invPiNum / unitDen exp * d + 1 ∧
      2 ^ 24 ≤ b + d := by
  unfold fareyCheck at h
  simp only [Bool.and_eq_true] at h
  exact ⟨of_decide_eq_true h.1, of_decide_eq_true h.2⟩

theorem unitDen_pos (exp : Int) : 0 < unitDen exp := by unfold unitDen ratioDen; positivity

/-- An integer below the upper bound is below the lower one. -/
theorem no_integer_between {exp : Int} (h1 : -149 ≤ exp) (h2 : exp ≤ 104) {m n : Nat} (hm : 0 < m)
    (hm' : m < 2 ^ 24) (hn : n * unitDen exp ≤ m * unitNum exp * (invPiNum + 1)) :
    n * unitDen exp ≤ m * unitNum exp * invPiNum := by
  have hk : (((exp + 149).toNat : Nat) : Int) - 149 = exp := by omega
  obtain ⟨hdet, hbd⟩ := fareyCheck_spec (fareyCheck_all (exp + 149).toNat (by omega))
  rw [hk] at hdet hbd
  have hb : 0 < (fareyPair exp).1 := by
    rcases Nat.eq_zero_or_pos (fareyPair exp).1 with h | h
    · rw [h] at hdet; simp at hdet
    · exact h
  refine farey_gap hm (hm'.trans_le hbd) hdet (Nat.div_mul_le_self _ _) ?_ hb hn
  rw [Nat.mul_comm _ (unitDen exp)]
  exact Nat.lt_mul_div_succ _ (unitDen_pos exp)

/-! ### The result -/

theorem two_zpow_eq (exp : Int) : (2 : ℝ) ^ exp * ratioDen exp = ratioNum 1 exp := by
  unfold ratioDen ratioNum
  rcases le_total 0 exp with h | h
  · obtain ⟨k, rfl⟩ := Int.eq_ofNat_of_zero_le h
    simp
  · obtain ⟨k, hk⟩ := Int.eq_ofNat_of_zero_le (Int.neg_nonneg_of_nonpos h)
    have : exp = -(k : Int) := by omega
    subst this; simp

/-- The integer part is exact: `angleUnits` is the greatest natural not above `mant · 2^exp · 18000000 / π`. -/
theorem angleUnits_eq_floor {exp : Int} (h1 : -149 ≤ exp) (h2 : exp ≤ 104) {m : Nat} (hm : 0 < m)
    (hm' : m < 2 ^ 24) : angleUnits m exp = ⌊(m : ℝ) * 2 ^ exp * 18000000 / π⌋₊ := by
  have hB : 0 < unitDen exp := unitDen_pos exp
  have hBr : (0 : ℝ) < unitDen exp := by exact_mod_cast hB
  have hP : (0 : ℝ) < invPiNum := Nat.cast_pos.2 invPiNum_pos
  have hA : (0 : ℝ) < unitNum exp := by unfold unitNum ratioNum; positivity
  have hmr : (0 : ℝ) < m := by exact_mod_cast hm
  have hu : angleUnits m exp = m * unitNum exp * invPiNum / unitDen exp := by
    simp only [angleUnits, unitNum, unitDen, ratioNum, one_mul]
    generalize invPiNum = P
    generalize 2 ^ exp.toNat = E
    rw [Nat.mul_assoc m E]
  have hx : (m : ℝ) * 2 ^ exp * 18000000 / π * unitDen exp = m * unitNum exp * (2 ^ 256 / π) := by
    have := two_zpow_eq exp
    unfold unitNum unitDen; push_cast; rw [← this]; ring
  have lo : (invPiNum : ℝ) < 2 ^ 256 / π := by
    have := pi_lt; rw [lt_div_iff₀ hP] at this; rw [lt_div_iff₀ pi_pos]; linarith
  have hi : (2 : ℝ) ^ 256 / π < invPiNum + 1 := by
    have := pi_gt; rw [div_lt_iff₀ (by linarith)] at this; rw [div_lt_iff₀ pi_pos]; linarith
  have hmA : (0 : ℝ) < m * unitNum exp := by positivity
  rw [hu]
  refine le_antisymm (Nat.le_floor ?_) ?_
  · refine le_of_mul_le_mul_right ?_ hBr
    rw [hx]
    have : ((m * unitNum exp * invPiNum / unitDen exp : ℕ) : ℝ) * unitDen exp ≤ m * unitNum exp * invPiNum := by
      exact_mod_cast Nat.div_mul_le_self _ _
    exact this.trans (mul_le_mul_of_nonneg_left lo.le hmA.le)
  · rw [Nat.le_div_iff_mul_le hB]
    refine no_integer_between h1 h2 hm hm' ?_
    have hf := Nat.floor_le (a := (m : ℝ) * 2 ^ exp * 18000000 / π) (by positivity)
    have := mul_le_mul_of_nonneg_right hf hBr.le
    rw [hx] at this
    exact_mod_cast this.trans (mul_le_mul_of_nonneg_left hi.le hmA.le)

end Sys2Proof.Machine
end

