-- ==== Sys2Proof/Laws/Decode.lean ====
section
/-! SUPPORT. The identifier fields, the command map and the two decoding stages, each said once. -/

namespace Sys2Proof

/-- The bits of a command's identifier, field by field (R80). -/
theorem getLsbD_commandIdent (hdr : IdRest) (cmd : Byte) (i : Nat) :
    (commandIdent hdr cmd).getLsbD i =
      if i < 8 then hdr.target.getLsbD i
      else if i - 8 < 8 then cmd.getLsbD (i - 8) else hdr.unused.getLsbD (i - 8 - 8) := by
  have h : (commandIdent hdr cmd).getLsbD i =
      if i < 8 then hdr.target.getLsbD i else (hdr.unused ++ cmd).getLsbD (i - 8) :=
    BitVec.getLsbD_append (x := hdr.unused ++ cmd) (y := hdr.target)
  rw [h, BitVec.getLsbD_append]

@[simp] theorem targetId_commandIdent (hdr : IdRest) (cmd : Byte) :
    targetId (commandIdent hdr cmd) = hdr.target := by
  refine BitVec.eq_of_getLsbD_eq fun i hi => ?_
  simp [targetId, getLsbD_commandIdent, hi]

@[simp] theorem commandId_commandIdent (hdr : IdRest) (cmd : Byte) :
    commandId (commandIdent hdr cmd) = cmd := by
  refine BitVec.eq_of_getLsbD_eq fun i hi => ?_
  simp [commandId, getLsbD_commandIdent, hi]

@[simp] theorem idRest_commandIdent (hdr : IdRest) (cmd : Byte) : idRest (commandIdent hdr cmd) = hdr := by
  obtain ⟨u, t⟩ := hdr
  simp only [idRest, targetId_commandIdent, IdRest.mk.injEq, and_true]
  refine BitVec.eq_of_getLsbD_eq fun i hi => ?_
  simp only [BitVec.getLsbD_extractLsb', getLsbD_commandIdent, hi, decide_true, Bool.true_and]
  rw [if_neg (by omega), if_neg (by omega)]; congr 1; omega

/-- An identifier is its three fields (R80). -/
theorem commandIdent_eta (id : Ident) : commandIdent (idRest id) (commandId id) = id := by
  refine BitVec.eq_of_getLsbD_eq fun i hi => ?_
  simp only [getLsbD_commandIdent, idRest, targetId, commandId, BitVec.getLsbD_extractLsb']
  split
  · simp_all
  · split
    · simp only [*, decide_true, Bool.true_and]; congr 1; omega
    · rw [decide_eq_true (by omega : i - 8 - 8 < 13), Bool.true_and]; congr 1; omega

/-- The second stage keeps every byte: encoding what it answers gives the short buffer back. -/
theorem encode_decodeShortBuffer (hdr : IdRest) (p : List Byte) :
    encode (decodeShortBuffer hdr p) = commandFrame hdr cmdProcessShortBuffer p := by
  unfold decodeShortBuffer
  split
  · split
    · rename_i h; simp [encode, h]
    · split
      · rename_i h; simp [encode, h]
      · simp [encode]
  · simp [encode]

/-- The second stage answers a well-formed received command. -/
theorem wf_decodeShortBuffer (hdr : IdRest) (p : List Byte) (hp : p.length ≤ 8) :
    (decodeShortBuffer hdr p).wf = true ∧ (decodeShortBuffer hdr p).fromBus = true := by
  unfold decodeShortBuffer
  split
  · split
    · simp only [List.length_cons] at hp; simp [Instr.wf, Instr.fromBus]; omega
    · split
      · simp only [List.length_cons] at hp; simp [Instr.wf, Instr.fromBus]; omega
      · rename_i h0 h50
        simp only [Instr.wf, Instr.fromBus, isSubCommand, and_true]
        simp only [subFwVersion, subGetValuesSelective] at h0 h50
        simp_all
  · rename_i hne
    refine ⟨?_, rfl⟩
    simp only [Instr.wf, Bool.and_eq_true, decide_eq_true_eq, Bool.not_eq_true']
    refine ⟨hp, ?_⟩
    unfold isSubCommand; split
    · rename_i a b c d; exact absurd rfl (hne a b c d)
    · rfl

/-- Everything a decoded frame is: extended, at most 8 bytes, one of the four commands (R83, R84, R90). -/
theorem decodeFrame_instr {f : Frame} {i : Instr} (h : decodeFrame f = .instr i) :
    f.len ≤ 8 ∧ f.ext = true ∧
      ((commandId f.id = cmdProcessShortBuffer ∧ i = decodeShortBuffer (idRest f.id) f.data) ∨
        (commandId f.id = cmdSetCurrentRel ∧ i = .setCurrentRel (idRest f.id) f.data) ∨
        (commandId f.id = cmdPing ∧ i = .ping (idRest f.id) f.data) ∨
        (commandId f.id = cmdPollRotorPos ∧ i = .pollRotorPos (idRest f.id) f.data)) := by
  unfold decodeFrame at h
  split at h; · cases h
  split at h; · cases h
  rename_i h8 he
  refine ⟨by omega, by simpa using he, ?_⟩
  split at h
  · cases h; simp_all
  split at h
  · cases h; simp_all
  split at h
  · cases h; simp_all
  split at h
  · cases h; simp_all
  · cases h

/-- Only received commands come from frames. -/
theorem fromBus_of_decodeFrame {f : Frame} {i : Instr} (h : decodeFrame f = .instr i) : i.fromBus = true := by
  obtain ⟨h8, -, h | h | h | h⟩ := decodeFrame_instr h
  · exact h.2 ▸ (wf_decodeShortBuffer _ _ h8).2
  all_goals exact h.2 ▸ rfl

/-- Only host operations come from host codes (R111). -/
theorem fromBus_of_decodeHost {w : HostWord} {i : Instr} (h : decodeHost w = .instr i) : i.fromBus = false := by
  unfold decodeHost at h
  repeat' split at h
  all_goals cases h; try rfl

/-- A frame that is extended and not too long is rejected only for its command (R148). -/
theorem decodeFrame_reject {f : Frame} {r : Reject} (h : decodeFrame f = .reject r) (h8 : f.len ≤ 8)
    (he : f.ext = true) : r = .unknownCommand := by
  unfold decodeFrame at h
  rw [if_neg (by omega), if_neg (by simp [he])] at h
  repeat' split at h
  all_goals cases h; try rfl

end Sys2Proof
end

