-- ==== Sys2Proof/Laws/State.lean ====
section
/-! SUPPORT. What each update of the state leaves and what it writes, field by field: one statement per update,
a conjunction that `simp` uses as one rewrite rule per field. -/

namespace Sys2Proof.Machine

/-- What a transmission of `fs` puts into the receive queue: the frames themselves on a started bus that loops
back, else nothing (R27, R28). -/
def echoed (s : State) (fs : List Frame) : List Frame :=
  if s.loopback && s.busStarted then fs else []

@[simp] theorem echoed_noLoopback {s : State} (h : s.loopback = false) (fs : List Frame) : echoed s fs = [] := by
  simp [echoed, h]

theorem echoed_append (s : State) (fs gs : List Frame) : echoed s (fs ++ gs) = echoed s fs ++ echoed s gs := by
  unfold echoed; split <;> simp

/-- A transmission as one update. -/
theorem State.txWrite_eq (f : Frame) (s : State) :
    s.txWrite f = { s with out := s.out ++ [.tx f], rxQueue := s.rxQueue ++ echoed s [f] } := by
  unfold State.txWrite echoed; split <;> simp [State.emit, State.queueFrame]

/-- A clock value fits its width. -/
theorem clockValue_lt (p : Params) (now : Nat) : clockValue p now < 2 ^ p.clkW :=
  Nat.mod_lt _ (by positivity)

/-- Storing a clock value that fits stores it as it is. -/
theorem clockValue_of_lt {p : Params} {now : Nat} (h : now < 2 ^ p.clkW) : clockValue p now = now :=
  Nat.mod_eq_of_lt h

/-- The unsigned difference in integers (R231). -/
theorem clockDiff_eq (p : Params) (a b : Nat) : (clockDiff p a b : Int) = ((a : Int) - b) % 2 ^ p.clkW := by
  unfold clockDiff
  rw [Int.toNat_of_nonneg (Int.emod_nonneg _ (by positivity))]; norm_cast

theorem clockDiff_lt (p : Params) (a b : Nat) : clockDiff p a b < 2 ^ p.clkW := by
  have h := Int.emod_lt_of_pos ((a : Int) - b) (show (0 : Int) < 2 ^ p.clkW by positivity)
  rw [← clockDiff_eq] at h; exact_mod_cast h

/-- The difference does not see the width its operands were cut to. -/
theorem clockDiff_clockValue (p : Params) (a b : Nat) : clockDiff p (clockValue p a) b = clockDiff p a b := by
  have h : (clockDiff p (clockValue p a) b : Int) = clockDiff p a b := by
    rw [clockDiff_eq, clockDiff_eq, clockValue]; push_cast; rw [Int.emod_sub_emod]
  exact_mod_cast h

/-- When the watchdog fires, in integers (R231, R232). -/
theorem watchdogFires_iff (p : Params) (now last : Nat) (en rem : Bool) :
    watchdogFires p now last en rem = true ↔
      900000 < ((now : Int) - last) % 2 ^ p.clkW ∧ en = true ∧ rem = true := by
  rw [← clockDiff_eq, watchdogFires, Bool.and_eq_true, Bool.and_eq_true, decide_eq_true_iff, and_assoc]
  unfold wdTimeoutUs elapsed; norm_cast

/-- An error code fits the signed range of its width. -/
theorem errorValue_fits (p : Params) (e : Int) :
    -((2 ^ p.errW : Nat) : Int) ≤ 2 * errorValue p e ∧ 2 * errorValue p e < ((2 ^ p.errW : Nat) : Int) := by
  have hm : 0 < 2 ^ p.errW := by positivity
  have h1 := Int.le_bmod (x := e) hm
  have h2 := Int.bmod_lt (x := e) hm
  unfold errorValue
  generalize 2 ^ p.errW = m at *; omega

/-- Storing an error code in its range stores it as it is. -/
theorem errorValue_of_fits {p : Params} {e : Int} (h1 : -((2 ^ p.errW : Nat) : Int) ≤ 2 * e)
    (h2 : 2 * e < ((2 ^ p.errW : Nat) : Int)) : errorValue p e = e := by
  unfold errorValue
  generalize 2 ^ p.errW = m at *
  exact Int.bmod_eq_of_le_mul_two (by omega) (by omega)

/-- The stamp as one update: only `LAST_COMM`, with a value of `CLK_W` bits, and one draw for a fresh read. -/
theorem State.stamp_eq (s : State) :
    ∃ t, (s.now < 2 ^ s.params.clkW → t < 2 ^ s.params.clkW) ∧ (s.params.refreshStamp = .cycleNow → t = s.now) ∧
      s.stamp = { s with
        lastComm := t, draws := s.draws + if s.params.refreshStamp = .freshRead then 1 else 0 } := by
  unfold State.stamp
  cases h : s.params.refreshStamp with
  | cycleNow => exact ⟨s.now, id, fun _ => rfl, rfl⟩
  | freshRead =>
    refine ⟨_, fun _ => ?_, fun h => (by cases h), rfl⟩
    unfold freshStamp; split <;> exact clockValue_lt _ _

/-- The fields after the mark of a refusal (R224). -/
@[simp] theorem State.markRefused_fields (r : RefuseReason) (s : State) :
    (s.markRefused r).lc = s.lc ∧ (s.markRefused r).tpBound = s.tpBound ∧
    (s.markRefused r).motorBound = s.motorBound ∧ (s.markRefused r).nodeAddr = s.nodeAddr ∧
    (s.markRefused r).bitrate = s.bitrate ∧ (s.markRefused r).filtId = s.filtId ∧
    (s.markRefused r).filtMask = s.filtMask ∧ (s.markRefused r).filtExt = s.filtExt ∧
    (s.markRefused r).loopback = s.loopback ∧ (s.markRefused r).busStarted = s.busStarted ∧
    (s.markRefused r).remoteEn = s.remoteEn ∧ (s.markRefused r).voltage = s.voltage ∧
    (s.markRefused r).error = s.error ∧ (s.markRefused r).lastComm = s.lastComm ∧
    (s.markRefused r).refused = (match s.refused with | none => some r | some old => some old) ∧
    (s.markRefused r).phase = s.phase ∧ (s.markRefused r).rxf = s.rxf ∧ (s.markRefused r).now = s.now ∧
    (s.markRefused r).motor = s.motor ∧ (s.markRefused r).rxQueue = s.rxQueue ∧ (s.markRefused r).out = s.out ∧
    (s.markRefused r).inputs = s.inputs ∧ (s.markRefused r).drops = s.drops ∧
    (s.markRefused r).draws = s.draws ∧ (s.markRefused r).params = s.params :=
  ⟨rfl, rfl, rfl, rfl, rfl, rfl, rfl, rfl, rfl, rfl, rfl, rfl, rfl, rfl, rfl, rfl, rfl, rfl, rfl, rfl, rfl, rfl, rfl, rfl, rfl⟩

/-- The fields after the trace of a drop (R222). -/
@[simp] theorem State.recordDrop_fields (r : DropReason) (s : State) :
    (s.recordDrop r).lc = s.lc ∧ (s.recordDrop r).tpBound = s.tpBound ∧
    (s.recordDrop r).motorBound = s.motorBound ∧ (s.recordDrop r).nodeAddr = s.nodeAddr ∧
    (s.recordDrop r).bitrate = s.bitrate ∧ (s.recordDrop r).filtId = s.filtId ∧
    (s.recordDrop r).filtMask = s.filtMask ∧ (s.recordDrop r).filtExt = s.filtExt ∧
    (s.recordDrop r).loopback = s.loopback ∧ (s.recordDrop r).busStarted = s.busStarted ∧
    (s.recordDrop r).remoteEn = s.remoteEn ∧ (s.recordDrop r).voltage = s.voltage ∧
    (s.recordDrop r).error = s.error ∧ (s.recordDrop r).lastComm = s.lastComm ∧
    (s.recordDrop r).refused = s.refused ∧ (s.recordDrop r).phase = s.phase ∧ (s.recordDrop r).rxf = s.rxf ∧
    (s.recordDrop r).now = s.now ∧ (s.recordDrop r).motor = s.motor ∧ (s.recordDrop r).rxQueue = s.rxQueue ∧
    (s.recordDrop r).out = s.out ∧ (s.recordDrop r).inputs = s.inputs ∧
    (s.recordDrop r).drops = s.drops ++ [(r, s.rxf)] ∧ (s.recordDrop r).draws = s.draws ∧
    (s.recordDrop r).params = s.params :=
  ⟨rfl, rfl, rfl, rfl, rfl, rfl, rfl, rfl, rfl, rfl, rfl, rfl, rfl, rfl, rfl, rfl, rfl, rfl, rfl, rfl, rfl, rfl, rfl, rfl, rfl⟩

/-- The fields after an output event. -/
@[simp] theorem State.emit_fields (o : Output) (s : State) :
    (s.emit o).lc = s.lc ∧ (s.emit o).tpBound = s.tpBound ∧ (s.emit o).motorBound = s.motorBound ∧
    (s.emit o).nodeAddr = s.nodeAddr ∧ (s.emit o).bitrate = s.bitrate ∧ (s.emit o).filtId = s.filtId ∧
    (s.emit o).filtMask = s.filtMask ∧ (s.emit o).filtExt = s.filtExt ∧ (s.emit o).loopback = s.loopback ∧
    (s.emit o).busStarted = s.busStarted ∧ (s.emit o).remoteEn = s.remoteEn ∧ (s.emit o).voltage = s.voltage ∧
    (s.emit o).error = s.error ∧ (s.emit o).lastComm = s.lastComm ∧ (s.emit o).refused = s.refused ∧
    (s.emit o).phase = s.phase ∧ (s.emit o).rxf = s.rxf ∧ (s.emit o).now = s.now ∧ (s.emit o).motor = s.motor ∧
    (s.emit o).rxQueue = s.rxQueue ∧ (s.emit o).out = s.out ++ [o] ∧ (s.emit o).inputs = s.inputs ∧
    (s.emit o).drops = s.drops ∧ (s.emit o).draws = s.draws ∧ (s.emit o).params = s.params :=
  ⟨rfl, rfl, rfl, rfl, rfl, rfl, rfl, rfl, rfl, rfl, rfl, rfl, rfl, rfl, rfl, rfl, rfl, rfl, rfl, rfl, rfl, rfl, rfl, rfl, rfl⟩

/-- The fields after a frame entering the queue. -/
@[simp] theorem State.queueFrame_fields (f : Frame) (s : State) :
    (s.queueFrame f).lc = s.lc ∧ (s.queueFrame f).tpBound = s.tpBound ∧
    (s.queueFrame f).motorBound = s.motorBound ∧ (s.queueFrame f).nodeAddr = s.nodeAddr ∧
    (s.queueFrame f).bitrate = s.bitrate ∧ (s.queueFrame f).filtId = s.filtId ∧
    (s.queueFrame f).filtMask = s.filtMask ∧ (s.queueFrame f).filtExt = s.filtExt ∧
    (s.queueFrame f).loopback = s.loopback ∧ (s.queueFrame f).busStarted = s.busStarted ∧
    (s.queueFrame f).remoteEn = s.remoteEn ∧ (s.queueFrame f).voltage = s.voltage ∧
    (s.queueFrame f).error = s.error ∧ (s.queueFrame f).lastComm = s.lastComm ∧
    (s.queueFrame f).refused = s.refused ∧ (s.queueFrame f).phase = s.phase ∧ (s.queueFrame f).rxf = s.rxf ∧
    (s.queueFrame f).now = s.now ∧ (s.queueFrame f).motor = s.motor ∧
    (s.queueFrame f).rxQueue = s.rxQueue ++ [f] ∧ (s.queueFrame f).out = s.out ∧
    (s.queueFrame f).inputs = s.inputs ∧ (s.queueFrame f).drops = s.drops ∧ (s.queueFrame f).draws = s.draws ∧
    (s.queueFrame f).params = s.params :=
  ⟨rfl, rfl, rfl, rfl, rfl, rfl, rfl, rfl, rfl, rfl, rfl, rfl, rfl, rfl, rfl, rfl, rfl, rfl, rfl, rfl, rfl, rfl, rfl, rfl, rfl⟩

/-- The fields after a transmission (R240). -/
@[simp] theorem State.txWrite_fields (f : Frame) (s : State) :
    (s.txWrite f).lc = s.lc ∧ (s.txWrite f).tpBound = s.tpBound ∧ (s.txWrite f).motorBound = s.motorBound ∧
    (s.txWrite f).nodeAddr = s.nodeAddr ∧ (s.txWrite f).bitrate = s.bitrate ∧ (s.txWrite f).filtId = s.filtId ∧
    (s.txWrite f).filtMask = s.filtMask ∧ (s.txWrite f).filtExt = s.filtExt ∧
    (s.txWrite f).loopback = s.loopback ∧ (s.txWrite f).busStarted = s.busStarted ∧
    (s.txWrite f).remoteEn = s.remoteEn ∧ (s.txWrite f).voltage = s.voltage ∧ (s.txWrite f).error = s.error ∧
    (s.txWrite f).lastComm = s.lastComm ∧ (s.txWrite f).refused = s.refused ∧ (s.txWrite f).phase = s.phase ∧
    (s.txWrite f).rxf = s.rxf ∧ (s.txWrite f).now = s.now ∧ (s.txWrite f).motor = s.motor ∧
    (s.txWrite f).rxQueue = s.rxQueue ++ echoed s [f] ∧ (s.txWrite f).out = s.out ++ [.tx f] ∧
    (s.txWrite f).inputs = s.inputs ∧ (s.txWrite f).drops = s.drops ∧ (s.txWrite f).draws = s.draws ∧
    (s.txWrite f).params = s.params := by
  rw [State.txWrite_eq]; exact ⟨rfl, rfl, rfl, rfl, rfl, rfl, rfl, rfl, rfl, rfl, rfl, rfl, rfl, rfl, rfl, rfl, rfl, rfl, rfl, rfl, rfl, rfl, rfl, rfl, rfl⟩

/-- The fields after `Motor.enable()`. -/
@[simp] theorem State.motorEnable_fields (s : State) :
    s.motorEnable.lc = s.lc ∧ s.motorEnable.tpBound = s.tpBound ∧ s.motorEnable.motorBound = s.motorBound ∧
    s.motorEnable.nodeAddr = s.nodeAddr ∧ s.motorEnable.bitrate = s.bitrate ∧ s.motorEnable.filtId = s.filtId ∧
    s.motorEnable.filtMask = s.filtMask ∧ s.motorEnable.filtExt = s.filtExt ∧
    s.motorEnable.loopback = s.loopback ∧ s.motorEnable.busStarted = s.busStarted ∧
    s.motorEnable.remoteEn = s.remoteEn ∧ s.motorEnable.voltage = s.voltage ∧ s.motorEnable.error = s.error ∧
    s.motorEnable.lastComm = s.lastComm ∧ s.motorEnable.refused = s.refused ∧ s.motorEnable.phase = s.phase ∧
    s.motorEnable.rxf = s.rxf ∧ s.motorEnable.now = s.now ∧
    s.motorEnable.motor = { s.motor with enabled := true } ∧ s.motorEnable.rxQueue = s.rxQueue ∧
    s.motorEnable.out = s.out ++ [.motorEnable] ∧ s.motorEnable.inputs = s.inputs ∧
    s.motorEnable.drops = s.drops ∧ s.motorEnable.draws = s.draws ∧ s.motorEnable.params = s.params :=
  ⟨rfl, rfl, rfl, rfl, rfl, rfl, rfl, rfl, rfl, rfl, rfl, rfl, rfl, rfl, rfl, rfl, rfl, rfl, rfl, rfl, rfl, rfl, rfl, rfl, rfl⟩

/-- The fields after `Motor.disable()`. -/
@[simp] theorem State.motorDisable_fields (s : State) :
    s.motorDisable.lc = s.lc ∧ s.motorDisable.tpBound = s.tpBound ∧ s.motorDisable.motorBound = s.motorBound ∧
    s.motorDisable.nodeAddr = s.nodeAddr ∧ s.motorDisable.bitrate = s.bitrate ∧
    s.motorDisable.filtId = s.filtId ∧ s.motorDisable.filtMask = s.filtMask ∧
    s.motorDisable.filtExt = s.filtExt ∧ s.motorDisable.loopback = s.loopback ∧
    s.motorDisable.busStarted = s.busStarted ∧ s.motorDisable.remoteEn = s.remoteEn ∧
    s.motorDisable.voltage = s.voltage ∧ s.motorDisable.error = s.error ∧
    s.motorDisable.lastComm = s.lastComm ∧ s.motorDisable.refused = s.refused ∧
    s.motorDisable.phase = s.phase ∧ s.motorDisable.rxf = s.rxf ∧ s.motorDisable.now = s.now ∧
    s.motorDisable.motor = { s.motor with enabled := false } ∧ s.motorDisable.rxQueue = s.rxQueue ∧
    s.motorDisable.out = s.out ++ [.motorDisable] ∧ s.motorDisable.inputs = s.inputs ∧
    s.motorDisable.drops = s.drops ∧ s.motorDisable.draws = s.draws ∧ s.motorDisable.params = s.params :=
  ⟨rfl, rfl, rfl, rfl, rfl, rfl, rfl, rfl, rfl, rfl, rfl, rfl, rfl, rfl, rfl, rfl, rfl, rfl, rfl, rfl, rfl, rfl, rfl, rfl, rfl⟩

/-- The fields after `Motor.target <- v`. -/
@[simp] theorem State.setTarget_fields (v : B32) (s : State) :
    (s.setTarget v).lc = s.lc ∧ (s.setTarget v).tpBound = s.tpBound ∧
    (s.setTarget v).motorBound = s.motorBound ∧ (s.setTarget v).nodeAddr = s.nodeAddr ∧
    (s.setTarget v).bitrate = s.bitrate ∧ (s.setTarget v).filtId = s.filtId ∧
    (s.setTarget v).filtMask = s.filtMask ∧ (s.setTarget v).filtExt = s.filtExt ∧
    (s.setTarget v).loopback = s.loopback ∧ (s.setTarget v).busStarted = s.busStarted ∧
    (s.setTarget v).remoteEn = s.remoteEn ∧ (s.setTarget v).voltage = s.voltage ∧
    (s.setTarget v).error = s.error ∧ (s.setTarget v).lastComm = s.lastComm ∧
    (s.setTarget v).refused = s.refused ∧ (s.setTarget v).phase = s.phase ∧ (s.setTarget v).rxf = s.rxf ∧
    (s.setTarget v).now = s.now ∧ (s.setTarget v).motor = { s.motor with target := v } ∧
    (s.setTarget v).rxQueue = s.rxQueue ∧ (s.setTarget v).out = s.out ++ [.motorTarget v] ∧
    (s.setTarget v).inputs = s.inputs ∧ (s.setTarget v).drops = s.drops ∧ (s.setTarget v).draws = s.draws ∧
    (s.setTarget v).params = s.params :=
  ⟨rfl, rfl, rfl, rfl, rfl, rfl, rfl, rfl, rfl, rfl, rfl, rfl, rfl, rfl, rfl, rfl, rfl, rfl, rfl, rfl, rfl, rfl, rfl, rfl, rfl⟩

/-- The fields after a draw. -/
@[simp] theorem State.drew_fields (n : Nat) (s : State) :
    (s.drew n).lc = s.lc ∧ (s.drew n).tpBound = s.tpBound ∧ (s.drew n).motorBound = s.motorBound ∧
    (s.drew n).nodeAddr = s.nodeAddr ∧ (s.drew n).bitrate = s.bitrate ∧ (s.drew n).filtId = s.filtId ∧
    (s.drew n).filtMask = s.filtMask ∧ (s.drew n).filtExt = s.filtExt ∧ (s.drew n).loopback = s.loopback ∧
    (s.drew n).busStarted = s.busStarted ∧ (s.drew n).remoteEn = s.remoteEn ∧ (s.drew n).voltage = s.voltage ∧
    (s.drew n).error = s.error ∧ (s.drew n).lastComm = s.lastComm ∧ (s.drew n).refused = s.refused ∧
    (s.drew n).phase = s.phase ∧ (s.drew n).rxf = s.rxf ∧ (s.drew n).now = s.now ∧ (s.drew n).motor = s.motor ∧
    (s.drew n).rxQueue = s.rxQueue ∧ (s.drew n).out = s.out ∧ (s.drew n).inputs = s.inputs ∧
    (s.drew n).drops = s.drops ∧ (s.drew n).draws = s.draws + n ∧ (s.drew n).params = s.params :=
  ⟨rfl, rfl, rfl, rfl, rfl, rfl, rfl, rfl, rfl, rfl, rfl, rfl, rfl, rfl, rfl, rfl, rfl, rfl, rfl, rfl, rfl, rfl, rfl, rfl, rfl⟩

/-- The fields after the refresh stamp (R194). -/
@[simp] theorem State.stamp_fields (s : State) :
    s.stamp.lc = s.lc ∧ s.stamp.tpBound = s.tpBound ∧ s.stamp.motorBound = s.motorBound ∧
    s.stamp.nodeAddr = s.nodeAddr ∧ s.stamp.bitrate = s.bitrate ∧ s.stamp.filtId = s.filtId ∧
    s.stamp.filtMask = s.filtMask ∧ s.stamp.filtExt = s.filtExt ∧ s.stamp.loopback = s.loopback ∧
    s.stamp.busStarted = s.busStarted ∧ s.stamp.remoteEn = s.remoteEn ∧ s.stamp.voltage = s.voltage ∧
    s.stamp.error = s.error ∧ s.stamp.refused = s.refused ∧ s.stamp.phase = s.phase ∧ s.stamp.rxf = s.rxf ∧
    s.stamp.now = s.now ∧ s.stamp.motor = s.motor ∧ s.stamp.rxQueue = s.rxQueue ∧ s.stamp.out = s.out ∧
    s.stamp.inputs = s.inputs ∧ s.stamp.drops = s.drops ∧ s.stamp.params = s.params := by
  obtain ⟨t, -, -, h⟩ := s.stamp_eq; rw [h]; exact ⟨rfl, rfl, rfl, rfl, rfl, rfl, rfl, rfl, rfl, rfl, rfl, rfl, rfl, rfl, rfl, rfl, rfl, rfl, rfl, rfl, rfl, rfl, rfl⟩

end Sys2Proof.Machine
end

