-- ==== Sys2Proof/Laws/Exec.lean ====
section
/-! SUPPORT. What the shared operations and the meanings can do, each said once: the provers cite these and do
not unfold the meanings. `exec_bus` and `exec_host` say of every instruction all that it can do. -/

namespace Sys2Proof.Machine

/-! ### The short-buffer operations -/

theorem fwVersion_eq (replyTo : Byte) (s : State) :
    fwVersion replyTo s =
      { s with
        out := s.out ++ [.tx (fwVersionFrame replyTo s.nodeAddr s.params.fwMajor s.params.fwMinor)]
        rxQueue := s.rxQueue ++
          echoed s [fwVersionFrame replyTo s.nodeAddr s.params.fwMajor s.params.fwMinor] } := by
  rw [fwVersion, State.txWrite_eq]

/-- The refresh as one update: behind its gate it writes `LAST_COMM`, and draws once for a fresh read (R193, R194). -/
theorem refreshWatchdog_eq (s : State) :
    ∃ t, (s.now < 2 ^ s.params.clkW → t < 2 ^ s.params.clkW) ∧ (s.params.refreshStamp = .cycleNow → t = s.now) ∧
      refreshWatchdog s = { s with
        lastComm := if s.params.wdRefreshGated = false ∨ s.remoteEn = true then t else s.lastComm
        draws := s.draws +
          if (s.params.wdRefreshGated = false ∨ s.remoteEn = true) ∧ s.params.refreshStamp = .freshRead then 1
          else 0 } := by
  obtain ⟨t, ht, hc, hs⟩ := s.stamp_eq
  refine ⟨t, ht, hc, ?_⟩
  unfold refreshWatchdog
  by_cases hg : s.params.wdRefreshGated = false ∨ s.remoteEn = true
  · simp only [hg, if_true, true_and, hs]
  · simp only [hg, if_false, false_and, Nat.add_zero]

theorem enableQuirk_eq (s : State) :
    enableQuirk s =
      if s.motor.enabled = false ∧ s.remoteEn = false then
        { s with motor := { s.motor with enabled := true }, out := s.out ++ [.motorEnable] }
      else s := rfl

/-- The voltage reply is one frame; its last byte is the byte of `VOLTAGE`, and a draw where there is none. -/
theorem voltageReply_eq (replyTo : Byte) (s : State) :
    ∃ b, (∀ v, voltageByte s = some v → b = v) ∧
      voltageReply replyTo s =
        { s with
          out := s.out ++ [.tx (valueFrame replyTo s.nodeAddr maskVoltage b)]
          rxQueue := s.rxQueue ++ echoed s [valueFrame replyTo s.nodeAddr maskVoltage b]
          draws := s.draws + if voltageByte s = none then 1 else 0 } := by
  unfold voltageReply
  cases h : voltageByte s with
  | some v => exact ⟨v, by simp, by simp [State.txWrite_eq]⟩
  | none => exact ⟨Config.freeByte s.draws, by simp, by simp [State.txWrite_eq, State.drew]⟩

theorem statusReply_eq (replyTo : Byte) (s : State) :
    statusReply replyTo s =
      { s with
        out := s.out ++ [.tx (valueFrame replyTo s.nodeAddr maskStatus (statusByte s.error))]
        rxQueue := s.rxQueue ++ echoed s [valueFrame replyTo s.nodeAddr maskStatus (statusByte s.error)] } := by
  rw [statusReply, State.txWrite_eq]

/-- The frames that answer a mask, given the voltage byte that is sent (R196). -/
def answerFrames (replyTo : Byte) (mask : Word) (vbyte : Byte) (s : State) : List Frame :=
  (if asksVoltage mask then [valueFrame replyTo s.nodeAddr maskVoltage vbyte] else []) ++
    (if asksStatus mask then [valueFrame replyTo s.nodeAddr maskStatus (statusByte s.error)] else [])

/-- Answering a mask sends exactly those frames, and draws once for a voltage byte that is asked for and has no
value. -/
theorem answerMask_eq (replyTo : Byte) (mask : Word) (s : State) :
    ∃ b, (∀ v, voltageByte s = some v → b = v) ∧
      answerMask replyTo mask s =
        { s with
          out := s.out ++ (answerFrames replyTo mask b s).map .tx
          rxQueue := s.rxQueue ++ echoed s (answerFrames replyTo mask b s)
          draws := s.draws + if asksVoltage mask = true ∧ voltageByte s = none then 1 else 0 } := by
  obtain ⟨b, hv, hr⟩ := voltageReply_eq replyTo s
  refine ⟨b, hv, ?_⟩
  by_cases h8 : asksVoltage mask = true <;> by_cases h15 : asksStatus mask = true
  · simp only [answerMask, h8, h15, if_true, true_and, hr, statusReply_eq, answerFrames, echoed_append,
      List.map_append, List.map_cons, List.map_nil, List.append_assoc]
    rfl
  · simp [answerMask, h8, h15, hr, answerFrames]
  · simp [answerMask, h8, h15, statusReply_eq, answerFrames]
  · simp [answerMask, h8, h15, answerFrames, echoed]

/-- The effects of a request for values on a mask, as one update (R193, R195, R196). -/
theorem request_eq (replyTo : Byte) (mask : Word) (s : State) :
    ∃ t b, (s.now < 2 ^ s.params.clkW → t < 2 ^ s.params.clkW) ∧ (s.params.refreshStamp = .cycleNow → t = s.now) ∧
      (∀ v, voltageByte s = some v → b = v) ∧
      answerMask replyTo mask (enableQuirk (refreshWatchdog s)) = { s with
        lastComm := if s.params.wdRefreshGated = false ∨ s.remoteEn = true then t else s.lastComm
        motor := if s.motor.enabled = false ∧ s.remoteEn = false then { s.motor with enabled := true } else s.motor
        out := s.out ++ (if s.motor.enabled = false ∧ s.remoteEn = false then [.motorEnable] else []) ++
          (answerFrames replyTo mask b s).map .tx
        rxQueue := s.rxQueue ++ echoed s (answerFrames replyTo mask b s)
        draws := s.draws +
          (if (s.params.wdRefreshGated = false ∨ s.remoteEn = true) ∧ s.params.refreshStamp = .freshRead then 1
            else 0) + if asksVoltage mask = true ∧ voltageByte s = none then 1 else 0 } := by
  obtain ⟨t, ht, hc, hr⟩ := refreshWatchdog_eq s
  obtain ⟨b, hb, ha⟩ := answerMask_eq replyTo mask (enableQuirk (refreshWatchdog s))
  have he : ∀ u : State, voltageByte (enableQuirk u) = voltageByte u := by
    intro u; rw [enableQuirk_eq]; split <;> rfl
  have hv : voltageByte (enableQuirk (refreshWatchdog s)) = voltageByte s := by rw [he, hr]; rfl
  refine ⟨t, b, ht, hc, hv ▸ hb, ?_⟩
  rw [ha, hv, hr, enableQuirk_eq]
  by_cases hq : s.motor.enabled = false ∧ s.remoteEn = false
  · simp only [if_pos hq]; rfl
  · simp only [if_neg hq, List.append_nil]; rfl

/-! ### Every received command -/

/-- All that processing a received command can write. -/
def busUpdate (s : State) (last : Nat) (en : Bool) (target : B32) (os : List Output)
    (fs : List Frame) (ds : List (DropReason × Frame)) (n : Nat) : State :=
  { s with
    lastComm := last
    motor := { s.motor with enabled := en, target := target }
    out := s.out ++ os
    rxQueue := s.rxQueue ++ echoed s fs
    drops := s.drops ++ ds
    draws := s.draws + n }

/-- The header of every frame the block writes (R82). -/
abbrev IsReply (f : Frame) : Prop :=
  f.ext = true ∧ (∃ tgt cmd : Byte, f.id = replyIdent tgt cmd) ∧ f.len ≤ 8

/-- When a received command may write what it may write: `LAST_COMM`, and `enabled` (to 1, in local mode), only by
a request for values, which keeps it within `CLK_W` bits; the target only by a torque command in remote mode; what the
watchdog emits, never; and a drop writes nothing else. -/
structure BusEffect (i : Instr) (s : State) (last : Nat) (en : Bool) (target : B32) (os : List Output)
    (fs : List Frame) (ds : List (DropReason × Frame)) (n : Nat) : Prop where
  last_only : last ≠ s.lastComm → asksValues i = true
  last_fits : s.now < 2 ^ s.params.clkW → last ≠ s.lastComm → last < 2 ^ s.params.clkW
  enabled_only : en ≠ s.motor.enabled → asksValues i = true ∧ en = true ∧ s.remoteEn = false
  target_only : target ≠ s.motor.target → (∃ h p, i = .setCurrentRel h p) ∧ s.remoteEn = true
  sent : ∀ f, .tx f ∈ os → f ∈ fs
  replies : ∀ f ∈ fs, IsReply f
  no_watchdog : .motorDisable ∉ os ∧ .diag .wdTimeout ∉ os
  dropped : ds ≠ [] → (∃ r, ds = [(r, s.rxf)]) ∧ last = s.lastComm ∧ en = s.motor.enabled ∧
    target = s.motor.target ∧ os = [] ∧ fs = [] ∧ n = 0

/-- `PING`, `POLL_ROTOR_POS` and `FW_VERSION`: one frame, and at most one draw. -/
theorem BusEffect.reply (i : Instr) (s : State) (f : Frame) (n : Nat) (hf : IsReply f) :
    BusEffect i s s.lastComm s.motor.enabled s.motor.target [.tx f] [f] [] n where
  last_only h := absurd rfl h
  last_fits _ h := absurd rfl h
  enabled_only h := absurd rfl h
  target_only h := absurd rfl h
  sent g hg := by simpa using hg
  replies g hg := by simp only [List.mem_singleton] at hg; exact hg ▸ hf
  no_watchdog := by simp
  dropped h := absurd rfl h

/-- A drop (R222). -/
theorem BusEffect.drop (i : Instr) (s : State) (r : DropReason) :
    BusEffect i s s.lastComm s.motor.enabled s.motor.target [] [] [(r, s.rxf)] 0 where
  last_only h := absurd rfl h
  last_fits _ h := absurd rfl h
  enabled_only h := absurd rfl h
  target_only h := absurd rfl h
  sent f hf := by simp at hf
  replies f hf := by simp at hf
  no_watchdog := by simp
  dropped _ := ⟨⟨r, rfl⟩, rfl, rfl, rfl, rfl, rfl, rfl⟩

theorem dropFrame_eq (r : DropReason) (s : State) :
    dropFrame r s =
      .next (busUpdate s s.lastComm s.motor.enabled s.motor.target [] [] [(r, s.rxf)] 0) := by
  simp [dropFrame, State.recordDrop, busUpdate, echoed]

theorem txWrite_busUpdate (s : State) (f : Frame) :
    s.txWrite f = busUpdate s s.lastComm s.motor.enabled s.motor.target [.tx f] [f] [] 0 := by
  simp [State.txWrite_eq, busUpdate]

theorem drew_txWrite_busUpdate (s : State) (f : Frame) (n : Nat) :
    (s.txWrite f).drew n = busUpdate s s.lastComm s.motor.enabled s.motor.target [.tx f] [f] [] n := by
  simp [State.txWrite_eq, busUpdate, State.drew]

theorem isReply_pong (node : Byte) : IsReply (pongFrame node) :=
  ⟨rfl, ⟨node, cmdPong, rfl⟩, by simp [Frame.len, pongFrame]⟩

theorem isReply_rotor (node : Byte) (code : Word) : IsReply (rotorFrame node code) :=
  ⟨rfl, ⟨node, cmdPollRotorPos, rfl⟩, by simp [Frame.len, rotorFrame, be32Bytes]⟩

theorem isReply_fwVersion (r node a b : Byte) : IsReply (fwVersionFrame r node a b) :=
  ⟨rfl, ⟨r, cmdProcessShortBuffer, rfl⟩, by simp [Frame.len, fwVersionFrame, shortReply]⟩

theorem isReply_value (r node : Byte) (m : Word) (b : Byte) : IsReply (valueFrame r node m b) :=
  ⟨rfl, ⟨r, cmdProcessShortBuffer, rfl⟩, by simp [Frame.len, valueFrame, shortReply, be32Bytes]⟩

theorem isReply_answer {r b : Byte} {m : Word} {s : State} :
    ∀ f ∈ answerFrames r m b s, IsReply f := by
  intro f hf
  simp only [answerFrames, List.mem_append] at hf
  rcases hf with hf | hf <;> split at hf <;> simp at hf <;> subst hf <;> exact isReply_value _ _ _ _

/-- A request for values (R193): dropped when short; otherwise the refresh, the quirk and the replies. -/
theorem getValuesSelective_bus (i : Instr) (hi : asksValues i = true) (replyTo : Byte) (rest : List Byte)
    (s : State) :
    ∃ last en os fs ds n, BusEffect i s last en s.motor.target os fs ds n ∧
      getValuesSelective replyTo rest s = .next (busUpdate s last en s.motor.target os fs ds n) := by
  unfold getValuesSelective
  split
  · exact ⟨_, _, _, _, _, _, BusEffect.drop i s .gvsShort, dropFrame_eq _ _⟩
  · rename_i mask _
    obtain ⟨t, b, ht, -, -, hx⟩ := request_eq replyTo mask s
    refine ⟨if s.params.wdRefreshGated = false ∨ s.remoteEn = true then t else s.lastComm,
      if s.motor.enabled = false ∧ s.remoteEn = false then true else s.motor.enabled,
      (if s.motor.enabled = false ∧ s.remoteEn = false then [.motorEnable] else []) ++
        (answerFrames replyTo mask b s).map .tx, answerFrames replyTo mask b s, [],
      (if (s.params.wdRefreshGated = false ∨ s.remoteEn = true) ∧ s.params.refreshStamp = .freshRead then 1
        else 0) + (if asksVoltage mask = true ∧ voltageByte s = none then 1 else 0), ?_, ?_⟩
    rotate_left
    · rw [hx]; congr 1; unfold busUpdate
      congr 1
      · split <;> rfl
      · exact List.append_assoc _ _ _
      · simp
      · exact Nat.add_assoc _ _ _
    · exact
        { last_only := fun _ => hi
          last_fits := fun hn hne => by
            split at hne
            · rename_i hg; rw [if_pos hg]; exact ht hn
            · exact absurd rfl hne
          enabled_only := fun hne => by
            split at hne
            · rename_i hq; exact ⟨hi, if_pos hq, hq.2⟩
            · exact absurd rfl hne
          target_only := fun h => absurd rfl h
          sent := fun f hf => by
            rw [List.mem_append] at hf; rcases hf with hf | hf
            · split at hf <;> simp at hf
            · simpa using hf
          replies := isReply_answer
          no_watchdog := by split <;> simp
          dropped := fun h => absurd rfl h }

/-- The torque write (R161, R162): the target and one output event, and at most one draw. -/
theorem driveTorque_eq (raw : Word) (s : State) :
    ∃ v n, driveTorque raw s =
      { s with
        motor := { s.motor with target := v }, out := s.out ++ [.motorTarget v], draws := s.draws + n } := by
  unfold driveTorque
  split
  · exact ⟨_, 0, rfl⟩
  · split
    · exact ⟨_, 0, rfl⟩
    · exact ⟨_, 1, rfl⟩

/-- Every received command answers a next state, and this is all it can do. -/
theorem exec_bus (i : Instr) (hi : i.fromBus = true) (s : State) :
    ∃ last en target os fs ds n, BusEffect i s last en target os fs ds n ∧
      exec i s = .next (busUpdate s last en target os fs ds n) := by
  cases i with
  | ping h p => exact ⟨_, _, _, _, _, _, _, BusEffect.reply _ s _ 0 (isReply_pong s.nodeAddr), by
      simp [exec, execPing, txWrite_busUpdate]⟩
  | pollRotorPos h p =>
    simp only [exec, execPollRotorPos]
    split
    · exact ⟨_, _, _, _, _, _, _, BusEffect.reply _ s _ 0 (isReply_rotor _ _), by rw [txWrite_busUpdate]⟩
    · exact ⟨_, _, _, _, _, _, _, BusEffect.reply _ s _ 1 (isReply_rotor _ _), by
        rw [drew_txWrite_busUpdate]⟩
  | sbFwVersion h r x rest => exact ⟨_, _, _, _, _, _, _, BusEffect.reply _ s _ 0 (isReply_fwVersion r s.nodeAddr
      s.params.fwMajor s.params.fwMinor), by simp [exec, execSbFwVersion, fwVersion, txWrite_busUpdate]⟩
  | sbGetValuesSelective h r x rest =>
    obtain ⟨last, en, os, fs, ds, n, he, hx⟩ :=
      getValuesSelective_bus (.sbGetValuesSelective h r x rest) rfl r rest s
    exact ⟨last, en, _, os, fs, ds, n, he, hx⟩
  | setCurrentRel h p =>
    simp only [exec, execSetCurrentRel]
    split
    · exact ⟨_, _, _, _, _, _, _, BusEffect.drop _ s .scrRemoteDisabled, dropFrame_eq _ _⟩
    · rename_i hr
      split
      · exact ⟨_, _, _, _, _, _, _, BusEffect.drop _ s .scrShort, dropFrame_eq _ _⟩
      · rename_i raw _
        obtain ⟨v, n, hv⟩ := driveTorque_eq raw s
        refine ⟨s.lastComm, s.motor.enabled, v, [.motorTarget v], [], [], n, ?_, ?_⟩
        · exact
            { last_only := fun h => absurd rfl h
              last_fits := fun _ h => absurd rfl h
              enabled_only := fun h => absurd rfl h
              target_only := fun _ => ⟨⟨h, p, rfl⟩, by simpa using hr⟩
              sent := by simp
              replies := by simp
              no_watchdog := by simp
              dropped := fun h => absurd rfl h }
        · rw [hv]; simp [busUpdate, echoed]
  | processShortBuffer h p =>
    simp only [exec, execProcessShortBuffer]
    split
    · rename_i r x sub rest
      split
      · exact ⟨_, _, _, _, _, _, _, BusEffect.reply _ s _ 0 (isReply_fwVersion _ _ _ _), by
          rw [fwVersion, txWrite_busUpdate]⟩
      · split
        · rename_i hs
          obtain ⟨last, en, os, fs, ds, n, he, hx⟩ :=
            getValuesSelective_bus (.processShortBuffer h (r :: x :: sub :: rest))
              (by simp [asksValues, hs, subGetValuesSelective]) r rest s
          exact ⟨last, en, _, os, fs, ds, n, he, hx⟩
        · exact ⟨_, _, _, _, _, _, _, BusEffect.drop _ s .sbUnknownSub, dropFrame_eq _ _⟩
    · exact ⟨_, _, _, _, _, _, _, BusEffect.drop _ s .sbShort, dropFrame_eq _ _⟩
  | configure tp m a b => simp [Instr.fromBus] at hi
  | openBus => simp [Instr.fromBus] at hi
  | setRemoteEnable b => simp [Instr.fromBus] at hi
  | setVoltage v => simp [Instr.fromBus] at hi
  | setError e => simp [Instr.fromBus] at hi
  | run now => simp [Instr.fromBus] at hi

/-! ### Every host operation -/

/-- The watchdog check as one update (R232, R233). -/
theorem watchdogCheck_eq (now : Nat) (s : State) :
    watchdogCheck now s =
      if watchdogFires s.params now s.lastComm s.motor.enabled s.remoteEn then
        { s with motor := { s.motor with enabled := false }, out := s.out ++ [.motorDisable, .diag .wdTimeout] }
      else s := by
  unfold watchdogCheck; split
  · simp [State.motorDisable, State.emit]
  · rfl

/-- The start of a `RUN` as one update. -/
theorem startRun_eq (now : Nat) (s : State) :
    startRun now s =
      if watchdogFires s.params now s.lastComm s.motor.enabled s.remoteEn then
        { s with
          phase := .drain, now := clockValue s.params now, motor := { s.motor with enabled := false }
          out := s.out ++ [.motorDisable, .diag .wdTimeout] }
      else { s with phase := .drain, now := clockValue s.params now } := by
  have h : watchdogFires s.params (clockValue s.params now) s.lastComm s.motor.enabled s.remoteEn =
      watchdogFires s.params now s.lastComm s.motor.enabled s.remoteEn := by
    unfold watchdogFires elapsed; rw [clockDiff_clockValue]
  simp only [startRun, watchdogCheck_eq, h]
  split <;> rfl

theorem hostCall_idle {s : State} (h : s.phase = .idle) (body : State → Result) : hostCall s body = body s :=
  if_pos h

theorem hostCall_busy {s : State} (h : s.phase ≠ .idle) (body : State → Result) :
    hostCall s body = .next (s.markRefused .hostOpDuringRun) := if_neg h

/-- What a host operation that the contract allows does. -/
inductive HostEffect : Instr → State → State → Prop where
  | configure (s : State) (tp m : Bool) (a : Byte) (b : Word) : s.lc = .unconfigured →
    HostEffect (.configure tp m a b) s
      { s with tpBound := tp, motorBound := m, nodeAddr := a, bitrate := b, lc := .configured }
  | openBus (s : State) : s.lc = .configured → s.tpBound = true →
    HostEffect .openBus s
      { s with
        loopback := false, filtId := s.nodeAddr.setWidth 29, filtMask := 0x000000FF#29, filtExt := true
        busStarted := true, lc := .opened }
  | setRemoteEnable (s : State) (b : Bool) : HostEffect (.setRemoteEnable b) s { s with remoteEn := b }
  | setVoltage (s : State) (v : B32) : HostEffect (.setVoltage v) s { s with voltage := v }
  | setError (s : State) (e : Int) : HostEffect (.setError e) s { s with error := errorValue s.params e }
  | runNothing (s : State) (now : Nat) : (s.tpBound = false ∨ s.motorBound = false) →
    HostEffect (.run now) s s
  | run (s : State) (now : Nat) : s.tpBound = true → s.motorBound = true → s.lc = .opened →
    HostEffect (.run now) s (startRun now s)

/-- Every host operation answers a next state: the mark of a refusal, or between `RUN`s its own effect. -/
theorem exec_host (i : Instr) (hi : i.fromBus = false) (s : State) :
    (∃ r, exec i s = .next (s.markRefused r)) ∨
      (s.phase = .idle ∧ ∃ t, exec i s = .next t ∧ HostEffect i s t) := by
  by_cases hp : s.phase = .idle
  · cases i with
    | configure tp m a b =>
      simp only [exec, execConfigure, hostCall_idle hp]
      split
      · exact .inl ⟨_, rfl⟩
      · rename_i h; exact .inr ⟨hp, _, rfl, .configure s tp m a b (by simpa using h)⟩
    | openBus =>
      simp only [exec, execOpenBus, hostCall_idle hp]
      split
      · exact .inl ⟨_, rfl⟩
      · split
        · exact .inl ⟨_, rfl⟩
        · split
          · exact .inl ⟨_, rfl⟩
          · rename_i h1 h2 h3
            refine .inr ⟨hp, _, rfl, .openBus s ?_ (by simpa using h3)⟩
            cases h : s.lc <;> simp_all
    | setRemoteEnable b => exact .inr ⟨hp, _, by simp [exec, execSetRemoteEnable, hostCall_idle hp], .setRemoteEnable s b⟩
    | setVoltage v => exact .inr ⟨hp, _, by simp [exec, execSetVoltage, hostCall_idle hp], .setVoltage s v⟩
    | setError e => exact .inr ⟨hp, _, by simp [exec, execSetError, hostCall_idle hp], .setError s e⟩
    | run now =>
      simp only [exec, execRun, hostCall_idle hp]
      split
      · rename_i h; exact .inr ⟨hp, _, rfl, .runNothing s now h⟩
      · split
        · exact .inl ⟨_, rfl⟩
        · rename_i h1 h2
          simp only [not_or, Bool.not_eq_false] at h1
          exact .inr ⟨hp, _, rfl, .run s now h1.1 h1.2 (by simpa using h2)⟩
    | processShortBuffer h p => simp [Instr.fromBus] at hi
    | setCurrentRel h p => simp [Instr.fromBus] at hi
    | ping h p => simp [Instr.fromBus] at hi
    | pollRotorPos h p => simp [Instr.fromBus] at hi
    | sbFwVersion h r x rest => simp [Instr.fromBus] at hi
    | sbGetValuesSelective h r x rest => simp [Instr.fromBus] at hi
  · refine .inl ⟨.hostOpDuringRun, ?_⟩
    cases i <;> first
      | (simp [Instr.fromBus] at hi; done)
      | simp [exec, execConfigure, execOpenBus, execSetRemoteEnable, execSetVoltage, execSetError, execRun,
          hostCall_busy hp]

end Sys2Proof.Machine
end

