-- ==== Sys2Proof/Laws/Float.lean ====
section
/-! SUPPORT. The parts of rounding, each said once over the rationals: the exponent, the rounded quotient, and
that a value the format holds is rounded to itself. -/

namespace Sys2Proof.Machine

/-- A power of two with an integer exponent, as the two natural powers the definitions use. -/
theorem two_zpow (e : Int) : (2 : ℚ) ^ e * 2 ^ (-e).toNat = 2 ^ e.toNat := by
  rcases le_total 0 e with h | h
  · obtain ⟨k, rfl⟩ := Int.eq_ofNat_of_zero_le h; simp
  · obtain ⟨k, hk⟩ := Int.eq_ofNat_of_zero_le (Int.neg_nonneg_of_nonpos h)
    have : e = -(k : Int) := by omega
    subst this; simp

/-- `mant · 2^exp` is the ratio of its numerator and denominator. -/
theorem ratio_eq (mant : Nat) (exp : Int) : (ratioNum mant exp : ℚ) / ratioDen exp = mant * 2 ^ exp := by
  unfold ratioNum ratioDen; push_cast
  rw [div_eq_iff (by positivity), mul_assoc, two_zpow]

theorem ratioDen_pos (exp : Int) : 0 < ratioDen exp := by unfold ratioDen; positivity

theorem ratioNum_pos {mant : Nat} (h : 0 < mant) (exp : Int) : 0 < ratioNum mant exp := by
  unfold ratioNum; positivity

/-- `floorLog2` is the exponent of the leading bit. -/
theorem floorLog2_spec {num den : Nat} (hn : 0 < num) (hd : 0 < den) :
    (2 : ℚ) ^ floorLog2 num den ≤ num / den ∧ (num : ℚ) / den < 2 ^ (floorLog2 num den + 1) := by
  have hdq : (0 : ℚ) < den := by exact_mod_cast hd
  have n1 : (2 : ℚ) ^ (Nat.log2 num : Int) ≤ num := by
    rw [zpow_natCast]; exact_mod_cast Nat.log2_self_le hn.ne'
  have n2 : (num : ℚ) < 2 ^ ((Nat.log2 num : Int) + 1) := by
    exact_mod_cast Nat.lt_log2_self
  have d1 : (2 : ℚ) ^ (Nat.log2 den : Int) ≤ den := by
    rw [zpow_natCast]; exact_mod_cast Nat.log2_self_le hd.ne'
  have d2 : (den : ℚ) < 2 ^ ((Nat.log2 den : Int) + 1) := by
    exact_mod_cast Nat.lt_log2_self
  have key : ∀ l : Int, (den * 2 ^ l.toNat ≤ num * 2 ^ (-l).toNat) ↔ (2 : ℚ) ^ l ≤ num / den := by
    intro l
    have h2 : (0 : ℚ) < 2 ^ (-l).toNat := by positivity
    rw [le_div_iff₀ hdq, ← mul_le_mul_iff_left₀ h2, mul_right_comm, two_zpow]
    rw [← Nat.cast_le (α := ℚ)]; push_cast; rw [mul_comm]
  unfold floorLog2; dsimp only
  split
  · rename_i h
    refine ⟨(key _).1 h, ?_⟩
    rw [div_lt_iff₀ hdq]
    calc (num : ℚ) < 2 ^ ((Nat.log2 num : Int) + 1) := n2
      _ = 2 ^ ((Nat.log2 num : Int) - Nat.log2 den + 1) * 2 ^ (Nat.log2 den : Int) := by
        rw [← zpow_add₀ (by norm_num)]; congr 1; ring
      _ ≤ _ := mul_le_mul_of_nonneg_left d1 (by positivity)
  · rename_i h
    have h' := not_le.1 (mt (key _).2 h)
    refine ⟨?_, by rwa [sub_add_cancel]⟩
    rw [le_div_iff₀ hdq]
    calc (2 : ℚ) ^ ((Nat.log2 num : Int) - Nat.log2 den - 1) * den
        ≤ 2 ^ ((Nat.log2 num : Int) - Nat.log2 den - 1) * 2 ^ ((Nat.log2 den : Int) + 1) :=
          mul_le_mul_of_nonneg_left d2.le (by positivity)
      _ = 2 ^ (Nat.log2 num : Int) := by rw [← zpow_add₀ (by norm_num)]; congr 1; ring
      _ ≤ num := n1

/-- The leading bit's exponent is the only one that fits. -/
theorem floorLog2_eq {num den : Nat} (hn : 0 < num) (hd : 0 < den) {l : Int}
    (h1 : (2 : ℚ) ^ l ≤ num / den) (h2 : (num : ℚ) / den < 2 ^ (l + 1)) : floorLog2 num den = l := by
  obtain ⟨s1, s2⟩ := floorLog2_spec hn hd
  have a := (zpow_lt_zpow_iff_right₀ (by norm_num : (1 : ℚ) < 2)).1 (s1.trans_lt h2)
  have b := (zpow_lt_zpow_iff_right₀ (by norm_num : (1 : ℚ) < 2)).1 (h1.trans_lt s2)
  omega

/-- Rounding a quotient: within one half, and to the even neighbour in the middle. -/
theorem divNearestEven_spec {num den : Nat} (hd : 0 < den) :
    |(num : ℚ) / den - divNearestEven num den| ≤ 1 / 2 ∧
      (|(num : ℚ) / den - divNearestEven num den| = 1 / 2 → divNearestEven num den % 2 = 0) := by
  have hdq : (0 : ℚ) < den := by exact_mod_cast hd
  have hr : num % den < den := Nat.mod_lt _ hd
  have hx : (num : ℚ) / den = (num / den : ℕ) + ((num % den : ℕ) : ℚ) / den := by
    have h : (num : ℚ) = den * (num / den : ℕ) + (num % den : ℕ) := by exact_mod_cast (Nat.div_add_mod num den).symm
    rw [div_eq_iff hdq.ne', add_mul, div_mul_cancel₀ _ hdq.ne', mul_comm]; exact h
  have h2 : ((num % den : ℕ) : ℚ) / den * (2 * den) = 2 * (num % den : ℕ) := by field_simp
  generalize hρ : ((num % den : ℕ) : ℚ) / den = ρ at hx h2
  have hρ0 : 0 ≤ ρ := by rw [← hρ]; positivity
  have hρ1 : ρ < 1 := by rw [← hρ, div_lt_one hdq]; exact_mod_cast hr
  unfold divNearestEven
  split
  · rename_i hc
    have hge : (1 : ℚ) / 2 ≤ ρ := by
      have : (den : ℚ) ≤ 2 * (num % den : ℕ) := by exact_mod_cast (by omega : den ≤ 2 * (num % den))
      nlinarith
    rw [hx]; push_cast
    rw [show ((num / den : ℕ) : ℚ) + ρ - ((num / den : ℕ) + 1) = -(1 - ρ) by ring, abs_neg,
      abs_of_nonneg (by linarith)]
    refine ⟨by linarith, fun he => ?_⟩
    have hhalf : ρ = 1 / 2 := by linarith
    have : 2 * (num % den) = den := by
      have : (2 * (num % den : ℕ) : ℚ) = den := by rw [← h2, hhalf]; ring
      exact_mod_cast this
    omega
  · rename_i hc
    have hle : ρ ≤ 1 / 2 := by
      have : (2 * (num % den : ℕ) : ℚ) ≤ den := by exact_mod_cast (by omega : 2 * (num % den) ≤ den)
      nlinarith
    rw [hx, add_sub_cancel_left, abs_of_nonneg hρ0]
    refine ⟨hle, fun he => ?_⟩
    have : 2 * (num % den) = den := by
      have : (2 * (num % den : ℕ) : ℚ) = den := by rw [← h2, he]; ring
      exact_mod_cast this
    omega

/-- A quotient without remainder is itself. -/
theorem divNearestEven_exact {num den m : Nat} (hd : 0 < den) (h : num = m * den) :
    divNearestEven num den = m := by
  subst h; unfold divNearestEven
  rw [Nat.mul_mod_left, Nat.mul_div_cancel _ hd, if_neg (by omega)]

/-- The scaled quotient that is rounded is the exact value in units of the last place. -/
theorem scaled_eq (num den : Nat) (e : Int) :
    ((num * 2 ^ (-e).toNat : ℕ) : ℚ) / (den * 2 ^ e.toNat : ℕ) = (num : ℚ) / den / 2 ^ e := by
  have h := two_zpow e
  have h2 : (2 : ℚ) ^ (-e).toNat ≠ 0 := by positivity
  push_cast; rw [← h]
  rw [show (den : ℚ) * (2 ^ e * 2 ^ (-e).toNat) = den * 2 ^ e * 2 ^ (-e).toNat by ring,
    mul_div_mul_right _ _ h2, div_div]

/-- A significand and exponent as a format stores them: in range, and with a full leading bit unless subnormal. -/
structure Canonical (fmt : FloatFormat) (m : Nat) (e : Int) : Prop where
  lt : m < 2 ^ fmt.prec
  ge : fmt.minExp ≤ e
  le : e ≤ fmt.maxExp
  lead : 2 ^ (fmt.prec - 1) ≤ m ∨ e = fmt.minExp

/-- A value the format holds is rounded to itself. -/
theorem roundRatio_canonical {fmt : FloatFormat} (hp : 1 ≤ fmt.prec) (neg : Bool) {num den m : Nat} {e : Int}
    (hd : 0 < den) (hm : 0 < m) (hc : Canonical fmt m e) (hv : (num : ℚ) / den = m * 2 ^ e) :
    roundRatio fmt neg num den = .fin neg m e := by
  have hdq : (0 : ℚ) < den := by exact_mod_cast hd
  have hmq : (0 : ℚ) < m := by exact_mod_cast hm
  have hn : 0 < num := by
    rcases Nat.eq_zero_or_pos num with h | h
    · subst h
      have : (0 : ℚ) < m * 2 ^ e := by positivity
      rw [← hv] at this; simp at this
    · exact h
  have hl : floorLog2 num den = Nat.log2 m + e := by
    refine floorLog2_eq hn hd ?_ ?_
    · rw [hv, zpow_add₀ (by norm_num), zpow_natCast]
      exact mul_le_mul_of_nonneg_right (by exact_mod_cast Nat.log2_self_le hm.ne') (by positivity)
    · rw [hv, show ((Nat.log2 m : Int) + e + 1) = ((Nat.log2 m + 1 : ℕ) : Int) + e by push_cast; ring,
        zpow_add₀ (by norm_num), zpow_natCast]
      exact mul_lt_mul_of_pos_right (by exact_mod_cast Nat.lt_log2_self) (by positivity)
  have hu : ulpExp fmt num den = e := by
    have h1 : Nat.log2 m < fmt.prec := (Nat.log2_lt hm.ne').2 hc.lt
    have h2 := hc.ge
    unfold ulpExp; rw [hl]
    rcases hc.lead with h | h
    · have : fmt.prec - 1 ≤ Nat.log2 m := (Nat.le_log2 hm.ne').2 h
      omega
    · omega
  have hq : divNearestEven (num * 2 ^ (-e).toNat) (den * 2 ^ e.toNat) = m := by
    refine divNearestEven_exact (by positivity) ?_
    have h := scaled_eq num den e
    rw [hv, mul_div_assoc, div_self (by positivity), mul_one, div_eq_iff (by positivity)] at h
    exact_mod_cast h
  unfold roundRatio
  rw [if_neg hn.ne']
  simp only [hu, hq]
  unfold normalise
  rw [if_neg hc.lt.ne, if_neg (by have := hc.le; omega)]

/-- The sign bit beside 31 bits of magnitude. -/
theorem toNat_signBit_or (neg : Bool) {k : Nat} (hk : k < 2 ^ 31) :
    (signBit neg ||| BitVec.ofNat 32 k).toNat = (if neg then 2 ^ 31 else 0) + k := by
  rw [BitVec.toNat_or, BitVec.toNat_ofNat, Nat.mod_eq_of_lt (by omega)]
  cases neg
  · simp [signBit]
  · rw [if_pos rfl, show (signBit true).toNat = 2 ^ 31 * 1 from rfl, ← Nat.two_pow_add_eq_or_of_lt hk, Nat.mul_one]

/-- A 32-bit pattern is its sign, exponent and fraction fields. -/
theorem binary32_fields (b : B32) :
    b.toNat = (if b.getLsbD 31 then 2 ^ 31 else 0) +
      ((b.extractLsb' 23 8).toNat * 2 ^ 23 + (b.extractLsb' 0 23).toNat) := by
  have hs : b.getLsbD 31 = decide (b.toNat / 2 ^ 31 % 2 = 1) := by
    rw [← BitVec.testBit_toNat, Nat.testBit_eq_decide_div_mod_eq]
  have hlt := b.isLt
  simp only [BitVec.extractLsb'_toNat, Nat.shiftRight_eq_div_pow, hs, decide_eq_true_eq]
  split <;> omega

/-- What a finite binary32 pattern unpacks to is canonical, and packing it gives the pattern back. -/
theorem unpack32_fin {b : B32} {neg : Bool} {m : Nat} {e : Int} (h : unpack32 b = .fin neg m e) :
    Canonical binary32 m e ∧ pack32 (.fin neg m e) = some b := by
  have hb := binary32_fields b
  have he8 := (b.extractLsb' 23 8).isLt
  have hf := (b.extractLsb' 0 23).isLt
  unfold unpack32 at h
  generalize (b.extractLsb' 23 8).toNat = x at *
  generalize (b.extractLsb' 0 23).toNat = f at *
  dsimp only at h
  split at h
  · split at h <;> cases h
  · split at h
    · rename_i hx0
      cases h
      refine ⟨⟨by simp [binary32]; omega, by simp [binary32], by simp [binary32], .inr rfl⟩, ?_⟩
      rw [pack32, if_pos hf]
      congr 1
      apply BitVec.eq_of_toNat_eq
      rw [toNat_signBit_or _ (by omega), hb, hx0]; omega
    · cases h
      refine ⟨⟨by simp [binary32]; omega, by simp [binary32]; omega, by simp [binary32]; omega,
        .inl (by simp [binary32])⟩, ?_⟩
      rw [pack32, if_neg (by omega), show ((x : Int) - 150 + 150).toNat = x by omega, Nat.add_sub_cancel]
      congr 1
      apply BitVec.eq_of_toNat_eq
      rw [toNat_signBit_or _ (by omega), hb]

end Sys2Proof.Machine
end

