-- ==== Sys2Proof/Laws/PerInstr.lean ====
section
/-! SUPPORT. Statements about every instruction as syntax, one lemma per constructor. -/

namespace Sys2Proof.Laws

/-- The decoder reads back what the encoder writes. -/
def RoundTrip.Statement (i : Instr) : Prop := i.wf = true → decode (encode i) = .instr i

theorem decodeFrame_command (hdr : IdRest) (cmd : Byte) (p : List Byte) (hp : p.length ≤ 8) :
    decode (commandFrame hdr cmd p) =
      if cmd = cmdProcessShortBuffer then .instr (decodeShortBuffer hdr p)
      else if cmd = cmdSetCurrentRel then .instr (.setCurrentRel hdr p)
      else if cmd = cmdPing then .instr (.ping hdr p)
      else if cmd = cmdPollRotorPos then .instr (.pollRotorPos hdr p)
      else .reject .unknownCommand := by
  have h : ¬ 8 < p.length := by omega
  simp [commandFrame, decode, decodeFrame, Frame.len, h]

theorem decodeShortBuffer_noRow {hdr : IdRest} {p : List Byte} (h : isSubCommand p = false) :
    decodeShortBuffer hdr p = .processShortBuffer hdr p := by
  unfold decodeShortBuffer; split
  · rename_i r x sub rest
    simp only [isSubCommand, Bool.or_eq_false_iff, beq_eq_false_iff_ne] at h
    exact (if_neg h.1).trans (if_neg h.2)
  · rfl

theorem RoundTrip.processShortBuffer (hdr : IdRest) (p : List Byte) :
    RoundTrip.Statement (.processShortBuffer hdr p) := by
  intro h
  simp only [Instr.wf, Bool.and_eq_true, decide_eq_true_eq, Bool.not_eq_true'] at h
  rw [encode, decodeFrame_command _ _ _ h.1, if_pos rfl, decodeShortBuffer_noRow h.2]

theorem RoundTrip.setCurrentRel (hdr : IdRest) (p : List Byte) :
    RoundTrip.Statement (.setCurrentRel hdr p) := by
  intro h
  rw [encode, decodeFrame_command _ _ _ (by simpa [Instr.wf] using h)]
  rfl

theorem RoundTrip.ping (hdr : IdRest) (p : List Byte) : RoundTrip.Statement (.ping hdr p) := by
  intro h
  rw [encode, decodeFrame_command _ _ _ (by simpa [Instr.wf] using h)]
  rfl

theorem RoundTrip.pollRotorPos (hdr : IdRest) (p : List Byte) :
    RoundTrip.Statement (.pollRotorPos hdr p) := by
  intro h
  rw [encode, decodeFrame_command _ _ _ (by simpa [Instr.wf] using h)]
  rfl

theorem RoundTrip.sbFwVersion (hdr : IdRest) (r x : Byte) (rest : List Byte) :
    RoundTrip.Statement (.sbFwVersion hdr r x rest) := by
  intro h
  rw [encode, decodeFrame_command _ _ _ (by simp [Instr.wf] at h; simp; omega)]
  rfl

theorem RoundTrip.sbGetValuesSelective (hdr : IdRest) (r x : Byte) (rest : List Byte) :
    RoundTrip.Statement (.sbGetValuesSelective hdr r x rest) := by
  intro h
  rw [encode, decodeFrame_command _ _ _ (by simp [Instr.wf] at h; simp; omega)]
  rfl

theorem RoundTrip.configure (tp m : Bool) (a : Byte) (b : Word) :
    RoundTrip.Statement (.configure tp m a b) := fun _ => rfl

theorem RoundTrip.openBus : RoundTrip.Statement .openBus := fun _ => rfl

theorem RoundTrip.setRemoteEnable (b : Bool) : RoundTrip.Statement (.setRemoteEnable b) := fun _ => rfl

theorem RoundTrip.setVoltage (v : B32) : RoundTrip.Statement (.setVoltage v) := fun _ => rfl

theorem RoundTrip.setError (e : Int) : RoundTrip.Statement (.setError e) := fun _ => rfl

theorem RoundTrip.run (now : Nat) : RoundTrip.Statement (.run now) := fun _ => rfl

end Sys2Proof.Laws
end

