-- ==== Sys2Proof/Laws/Step.lean ====
section
/-! SUPPORT. What processing a frame and taking a step can do: one inversion lemma each. -/

namespace Sys2Proof.Machine

/-- A frame that passes the checks is short enough, extended, accepted and not addressed to 0 (R142). -/
theorem screenFrame_pass {s : State} {f : Frame} (h : screenFrame s f = .pass) :
    f.len ≤ 8 ∧ (s.params.acceptFilter = .exact → accepts s f = true) ∧ f.ext = true ∧
      addrPass s.nodeAddr (targetId f.id) = true := by
  unfold screenFrame at h
  split at h; · cases h
  split at h; · cases h
  split at h; · cases h
  split at h; · cases h
  rename_i h1 h2 h3 h4
  refine ⟨by omega, fun he => ?_, by simpa using h3, by simpa using h4⟩
  by_contra hc; exact h2 ⟨he, by simpa using hc⟩

/-- The checks refuse a frame only for its length (R83). -/
theorem screenFrame_refuse {s : State} {f : Frame} {r : RefuseReason} (h : screenFrame s f = .refuse r) :
    8 < f.len ∧ r = .rxLenGt8 := by
  unfold screenFrame at h
  split at h
  · rename_i h8; cases h; exact ⟨h8, rfl⟩
  · repeat' split at h
    all_goals cases h

/-- The checks drop only a frame that is short enough. -/
theorem screenFrame_drop {s : State} {f : Frame} {r : DropReason} (h : screenFrame s f = .drop r) :
    f.len ≤ 8 := by
  unfold screenFrame at h
  split at h
  · cases h
  · omega

/-- What processing a frame can do (R142). -/
inductive ProcessCase (f : Frame) (s : State) : State → Prop where
  | refused : 8 < f.len → ProcessCase f s ({ s with rxf := f }.markRefused .rxLenGt8)
  | dropped (r : DropReason) : f.len ≤ 8 → ProcessCase f s ({ s with rxf := f }.recordDrop r)
  | ran (i : Instr) (t : State) : screenFrame { s with rxf := f } f = .pass → decodeFrame f = .instr i →
    exec i { s with rxf := f } = .next t → ProcessCase f s t

theorem processFrame_cases (f : Frame) (s : State) : ∃ t, processFrame f s = .next t ∧ ProcessCase f s t := by
  unfold processFrame; dsimp only
  cases hs : screenFrame { s with rxf := f } f with
  | refuse r =>
    obtain ⟨h8, rfl⟩ := screenFrame_refuse hs
    exact ⟨_, rfl, .refused h8⟩
  | drop r => exact ⟨_, rfl, .dropped r (screenFrame_drop hs)⟩
  | pass =>
    dsimp only
    cases hd : decodeFrame f with
    | instr i =>
      obtain ⟨l, e, v, os, fs, ds, n, -, hx⟩ := exec_bus i (fromBus_of_decodeFrame hd) { s with rxf := f }
      exact ⟨_, hx, .ran i _ hs hd hx⟩
    | reject r => exact ⟨_, rfl, .dropped _ (screenFrame_pass hs).1⟩

/-- All that processing one frame can write, whichever frame it is. `fs` are the frames sent. -/
theorem processFrame_effect (f : Frame) (s : State) :
    (8 < f.len ∧ processFrame f s = .next ({ s with rxf := f }.markRefused .rxLenGt8)) ∨
      (f.len ≤ 8 ∧ ∃ i last en target os fs ds n,
        BusEffect i { s with rxf := f } last en target os fs ds n ∧
        processFrame f s = .next (busUpdate { s with rxf := f } last en target os fs ds n)) := by
  obtain ⟨t, ht, hc⟩ := processFrame_cases f s
  cases hc with
  | refused h8 => exact .inl ⟨h8, ht⟩
  | dropped r h8 =>
    refine .inr ⟨h8, .ping ⟨0, 0⟩ [], _, _, _, _, _, _, _, BusEffect.drop _ _ r, ?_⟩
    rw [ht]; exact dropFrame_eq r { s with rxf := f }
  | ran i _ hs hd hx =>
    obtain ⟨l, e, v, os, fs, ds, n, he, hx'⟩ := exec_bus i (fromBus_of_decodeFrame hd) { s with rxf := f }
    exact .inr ⟨(screenFrame_pass hs).1, i, l, e, v, os, fs, ds, n, he, by rw [ht, ← hx, hx']⟩

/-- What the block's own step can do (R141, R245). -/
inductive BlockCase (s : State) : State → Prop where
  | idle : s.phase = .idle → BlockCase s s
  | watchdog : s.phase = .wdCheck → BlockCase s (startRun s.now s)
  | ends : s.phase = .drain → s.rxQueue = [] → BlockCase s { s with phase := .idle }
  | frame (f : Frame) (q : List Frame) (t : State) : s.phase = .drain → s.rxQueue = f :: q →
    processFrame f { s with rxQueue := q } = .next t → BlockCase s t

theorem blockStep_cases (s : State) : ∃ t, blockStep s = .next t ∧ BlockCase s t := by
  unfold blockStep
  cases hp : s.phase with
  | idle => exact ⟨_, rfl, .idle hp⟩
  | wdCheck => exact ⟨_, rfl, .watchdog hp⟩
  | drain =>
    dsimp only; unfold drainStep
    cases hq : s.rxQueue with
    | nil => exact ⟨_, by simp only [← hq], .ends hp hq⟩
    | cons f q =>
      obtain ⟨t, ht, -⟩ := processFrame_cases f { s with rxQueue := q }
      exact ⟨t, ht, .frame f q t hp hq ht⟩

/-- The block's own step in the drain with a frame queued (R141). -/
theorem blockStep_frame {s : State} {f : Frame} {q : List Frame} (hp : s.phase = .drain) (hq : s.rxQueue = f :: q) :
    blockStep s = processFrame f { s with rxQueue := q } := by
  have h : blockStep s = drainStep s := by unfold blockStep; rw [hp]
  rw [h, drainStep, hq]

@[simp] theorem Peer.next_repeats_nil : (Peer.repeats []).next = (none, .repeats []) := rfl

@[simp] theorem Peer.next_repeats_cons (a : Option Frame) (arrivals : List (Option Frame)) :
    (Peer.repeats (a :: arrivals)).next = (a, .repeats (arrivals ++ [a])) := rfl

@[simp] theorem Peer.next_free (n : Nat) : (Peer.free n).next = (Config.freeArrival n, .free (n + 1)) := rfl

/-- An unending peer leaves the block its turn. -/
theorem peerStep_turn {p : Peer} {s : State} (rest : List Event) (hm : mayArrive s = true) (hn : p.next.1 = none) :
    peerStep p rest s = blockStep { s with inputs := .unending p.next.2 :: rest } := by
  simp only [peerStep, hm, hn, if_true]

/-- A frame of an unending peer arrives. -/
theorem peerStep_frame {p : Peer} {s : State} {f : Frame} (rest : List Event) (hm : mayArrive s = true)
    (hn : p.next.1 = some f) :
    peerStep p rest s = .next (receive f { s with inputs := .unending p.next.2 :: rest }) := by
  simp only [peerStep, hm, hn, if_true]

/-- An unending peer waits where no frame may arrive (R66). -/
theorem peerStep_waits (p : Peer) {s : State} (rest : List Event) (hm : mayArrive s = false) :
    peerStep p rest s = blockStep s := by
  simp only [peerStep, hm, Bool.false_eq_true, if_false]

/-- What a step can do. -/
inductive StepCase (s : State) : State → Prop where
  | block (t : State) : BlockCase s t → StepCase s t
  | tick (rest : List Event) (t : State) : s.inputs = .tick :: rest → BlockCase { s with inputs := rest } t →
    StepCase s t
  | returned (rest : List Event) : s.inputs = .await :: rest → s.phase = .idle →
    StepCase s { s with inputs := rest }
  | motor (m : MotorStep) (rest : List Event) : s.inputs = .motor m :: rest → s.phase = .idle →
    StepCase s { s with motor := s.motor.apply m, inputs := rest }
  | rx (f : Frame) (rest : List Event) : s.inputs = .rx f :: rest → mayArrive s = true →
    StepCase s (receive f { s with inputs := rest })
  | rxRemote (ext : Bool) (id : Ident) (len : Nat) (rest : List Event) : s.inputs = .rxRemote ext id len :: rest →
    mayArrive s = true → StepCase s (receiveRemote ext id len { s with inputs := rest })
  | peerTurn (p : Peer) (rest : List Event) (t : State) : s.inputs = .unending p :: rest → p.next.1 = none →
    BlockCase { s with inputs := .unending p.next.2 :: rest } t → StepCase s t
  | peerFrame (p : Peer) (rest : List Event) (f : Frame) : s.inputs = .unending p :: rest → p.next.1 = some f →
    mayArrive s = true → StepCase s (receive f { s with inputs := .unending p.next.2 :: rest })
  | badHost (w : HostWord) (rest : List Event) (r : Reject) : s.inputs = .host w :: rest →
    decodeHost w = .reject r → StepCase s ({ s with inputs := rest }.markRefused .badHostOp)
  | host (w : HostWord) (rest : List Event) (i : Instr) (t : State) : s.inputs = .host w :: rest →
    decodeHost w = .instr i → exec i { s with inputs := rest } = .next t → StepCase s t

/-- Every step of a sound state answers a next state. -/
theorem nextStep_cases (s : State) : ∃ t, nextStep s = .next t ∧ StepCase s t := by
  have hb : ∃ t, blockStep s = .next t ∧ StepCase s t := by
    obtain ⟨t, ht, hc⟩ := blockStep_cases s; exact ⟨t, ht, .block t hc⟩
  unfold nextStep
  cases hi : s.inputs with
  | nil => exact hb
  | cons e rest =>
    cases e with
    | host w =>
      dsimp only; unfold hostStep
      cases hd : decodeHost w with
      | reject r => exact ⟨_, rfl, .badHost w rest r hi hd⟩
      | instr i =>
        obtain ⟨r, hx⟩ | ⟨-, t, hx, -⟩ := exec_host i (fromBus_of_decodeHost hd) { s with inputs := rest }
        · exact ⟨_, hx, .host w rest i _ hi hd hx⟩
        · exact ⟨_, hx, .host w rest i _ hi hd hx⟩
    | rx f =>
      dsimp only; split
      · exact ⟨_, rfl, .rx f rest hi ‹_›⟩
      · exact hb
    | rxRemote ext id len =>
      dsimp only; split
      · exact ⟨_, rfl, .rxRemote ext id len rest hi ‹_›⟩
      · exact hb
    | motor m =>
      dsimp only; split
      · exact ⟨_, rfl, .motor m rest hi ‹_›⟩
      · exact hb
    | tick =>
      obtain ⟨t, ht, hc⟩ := blockStep_cases { s with inputs := rest }
      exact ⟨t, ht, .tick rest t hi hc⟩
    | await =>
      dsimp only; split
      · exact ⟨_, rfl, .returned rest hi ‹_›⟩
      · exact hb
    | unending p =>
      dsimp only
      cases hm : mayArrive s with
      | false => rw [peerStep_waits p rest hm]; exact hb
      | true =>
        cases hn : p.next.1 with
        | none =>
          obtain ⟨t, ht, hc⟩ := blockStep_cases { s with inputs := .unending p.next.2 :: rest }
          exact ⟨t, (peerStep_turn rest hm hn).trans ht, .peerTurn p rest t hi hn hc⟩
        | some f => exact ⟨_, peerStep_frame rest hm hn, .peerFrame p rest f hi hn hm⟩

theorem step_sound {s : State} (h : s.sound) : step s = nextStep s := by
  have h' : s.refused = none := h
  simp only [step, h']

theorem step_marked {s : State} {r : RefuseReason} (h : s.refused = some r) :
    step s = .refused (.contractBroken r) := by
  simp only [step, h]

/-- One more step of a run is that step and then the run from where it leads. -/
theorem core_run_next {s t : State} (k : Nat) (h : step s = .next t) : core.run (k + 1) s = core.run k t := by
  have h' : core.step s = .next t := h
  simp only [Host.Core.run, h']

/-- The inversion lemma of `step`. -/
theorem step_cases {s t : State} (h : step s = .next t) : s.sound ∧ StepCase s t := by
  cases hr : s.refused with
  | some r => rw [step_marked hr] at h; cases h
  | none =>
    refine ⟨hr, ?_⟩
    obtain ⟨t', ht, hc⟩ := nextStep_cases s
    rw [step_sound hr, ht] at h; cases h; exact hc

/-- While the outside world waits, a step of a `RUN` in progress is the block's own. -/
theorem nextStep_waiting {s : State} (hw : s.outsideWaits = true) (hp : s.phase ≠ .idle) :
    nextStep s = blockStep s := by
  have hpi : (s.phase == Phase.idle) = false := by simpa using hp
  unfold State.outsideWaits at hw
  unfold nextStep mayArrive
  cases hi : s.inputs with
  | nil => rfl
  | cons e rest =>
    rw [hi] at hw
    cases e with
    | host w => simp at hw
    | tick => simp at hw
    | motor m => simp [hp]
    | await => simp [hp]
    | unending p =>
      have hn : s.params.rxArrivals = .none := by simpa using hw
      have hf : (s.params.rxArrivals == RxArrivals.allowed) = false := by rw [hn]; rfl
      exact peerStep_waits p rest (by simp only [mayArrive, hpi, hf, Bool.or_self])
    | rx f =>
      have hn : s.params.rxArrivals = .none := by simpa using hw
      have hf : (s.params.rxArrivals == RxArrivals.allowed) = false := by rw [hn]; rfl
      simp only [hpi, hf, Bool.or_self, Bool.false_eq_true, if_false]
    | rxRemote a b c =>
      have hn : s.params.rxArrivals = .none := by simpa using hw
      have hf : (s.params.rxArrivals == RxArrivals.allowed) = false := by rw [hn]; rfl
      simp only [hpi, hf, Bool.or_self, Bool.false_eq_true, if_false]

/-- Processing a frame of at most 8 bytes without loopback leaves the sequencing of the `RUN` alone. -/
theorem processFrame_keeps {f : Frame} {s t : State} (h8 : f.len ≤ 8) (hl : s.loopback = false)
    (h : processFrame f s = .next t) :
    t.refused = s.refused ∧ t.phase = s.phase ∧ t.rxQueue = s.rxQueue ∧ t.inputs = s.inputs ∧
      t.params = s.params ∧ t.loopback = s.loopback := by
  obtain ⟨h9, -⟩ | ⟨-, i, l, e, v, os, fs, ds, n, -, hx⟩ := processFrame_effect f s
  · omega
  · rw [hx] at h; cases h
    have : echoed { s with rxf := f } fs = [] := echoed_noLoopback hl fs
    simp [busUpdate, this]

end Sys2Proof.Machine
end

