-- ==== Sys2Proof/Tests/Slice0.lean ====
section
/-! SUPPORT. The model's own tests, each one step or one value of the spec's test vectors (95_test_vectors.md), and for
every statement with hypotheses a witness that meets them. -/

namespace Sys2Proof.Tests

open Sys2Proof.Machine

/-! ### Small states -/

/-- The illustrative firmware constants of SB7. -/
def params : Params := { Config.defaults with fwMajor := 1, fwMinor := 2 }

/-- Power-on, with those constants. -/
def fresh : State := { State.reset with params := params }

/-- Configured as the vectors say: both collaborators bound, address 42. -/
def configured : State :=
  { fresh with lc := .configured, tpBound := true, motorBound := true, nodeAddr := 0x2A, bitrate := 500000 }

/-- Opened; the motor enabled, its target 0.75 and its limit 2.0. -/
def node : State :=
  { configured with
    lc := .opened, filtId := 0x2A, filtMask := 0xFF, filtExt := true, busStarted := true
    motor := ⟨true, 0x3F400000, 0x40000000, 0⟩ }

/-- The same in remote mode. -/
def remote : State := { node with remoteEn := true }

/-- In the drain of `RUN now=1000` with these frames queued. -/
def running (q : List Frame) : State := { node with phase := .drain, now := 1000, rxQueue := q }

/-- An opened node of address 0 (P4). -/
def nodeZero : State := { node with nodeAddr := 0, filtId := 0 }

/-- The identifier bits of a command to address 42. -/
def hdr : IdRest := ⟨0, 0x2A⟩

/-- An extended frame. -/
def ext (id : Ident) (data : List Byte) : Frame := ⟨true, id, data⟩

/-- Does the result answer a next state with this property? -/
def sees (r : Result) (p : State → Bool) : Bool :=
  match r with
  | .next t => p t
  | .fault _ => false
  | .refused _ => false

/-- A `RUN` about to start on two queued frames, with the motor bound or not. -/
def runReady (motor : Bool) : State :=
  { node with
    motorBound := motor
    rxQueue := [ext 0x0000112A [], ext 0x0000382A [1, 2, 3, 4, 5, 6, 7, 8]]
    inputs := [.host { code := 6, now := 900001 }] }

/-! ### WellFormed refuses -/

theorem test_wf_refuses_nine_bytes :
    (Instr.processShortBuffer hdr [5, 0, 7, 0, 0, 0, 0, 0, 0]).wf = false ∧
    (Instr.setCurrentRel hdr [0, 0, 0, 0, 0, 0, 0, 0, 0]).wf = false ∧
    (Instr.ping hdr [0, 0, 0, 0, 0, 0, 0, 0, 0]).wf = false ∧
    (Instr.pollRotorPos hdr [0, 0, 0, 0, 0, 0, 0, 0, 0]).wf = false ∧
    (Instr.sbFwVersion hdr 5 0 [0, 0, 0, 0, 0, 0]).wf = false ∧
    (Instr.sbGetValuesSelective hdr 5 0 [0, 0, 0, 0, 0, 0]).wf = false := by decide

theorem test_wf_refuses_a_row_of_its_own :
    (Instr.processShortBuffer hdr [5, 0, 0]).wf = false ∧
    (Instr.processShortBuffer hdr [5, 0, 50, 1]).wf = false ∧
    (Instr.processShortBuffer hdr [5, 0]).wf = true := by decide

theorem test_wf_frame :
    (Frame.wf ⟨true, 0, [0, 0, 0, 0, 0, 0, 0, 0, 0]⟩) = false ∧ (Frame.wf ⟨false, 0x800, []⟩) = false ∧
    (Frame.wf ⟨false, 0x7FF, []⟩) = true ∧ (Frame.wf ⟨true, 0x1FFFFFFF, []⟩) = true := by decide

/-! ### Decoding: words written out from the spec's encodings (R80, R87 to R92, R111, R110) -/

/-- `EXT 0x00000A2A [00 00 C3 50]` (T1), `EXT 0x0000112A []` (T4), `EXT 0x0000382A [DE AD]` (A10). -/
theorem test_decode_commands :
    decode (.frame (ext 0b0000000000000_00001010_00101010 [0x00, 0x00, 0xC3, 0x50])) =
      .instr (.setCurrentRel hdr [0x00, 0x00, 0xC3, 0x50]) ∧
    decode (.frame (ext 0b0000000000000_00010001_00101010 [])) = .instr (.ping hdr []) ∧
    decode (.frame (ext 0b0000000000000_00111000_00101010 [0xDE, 0xAD])) =
      .instr (.pollRotorPos hdr [0xDE, 0xAD]) := by decide

/-- SB5, GV11, SB1 to SB4. -/
theorem test_decode_short_buffers :
    decode (.frame (ext 0x0000082A [0x05, 0xFF, 0x00])) = .instr (.sbFwVersion hdr 0x05 0xFF []) ∧
    decode (.frame (ext 0x0000082A [0x05, 0x00, 0x32, 0x00, 0x00, 0x81, 0x00, 0xEE])) =
      .instr (.sbGetValuesSelective hdr 0x05 0x00 [0x00, 0x00, 0x81, 0x00, 0xEE]) ∧
    decode (.frame (ext 0x0000082A [])) = .instr (.processShortBuffer hdr []) ∧
    decode (.frame (ext 0x0000082A [0x05, 0x00])) = .instr (.processShortBuffer hdr [0x05, 0x00]) ∧
    decode (.frame (ext 0x0000082A [0x05, 0x00, 0x01])) = .instr (.processShortBuffer hdr [0x05, 0x00, 0x01]) := by
  decide

/-- The host codes of R111. -/
theorem test_decode_host :
    decode (.host { code := 0b0001, tp := true, motor := true, addr := 42, bitrate := 500000 }) =
      .instr (.configure true true 42 500000) ∧
    decode (.host { code := 0b0010 }) = .instr .openBus ∧
    decode (.host { code := 0b0011, enable := true }) = .instr (.setRemoteEnable true) ∧
    decode (.host { code := 0b0100, volts := 0x4144CCCD }) = .instr (.setVoltage 0x4144CCCD) ∧
    decode (.host { code := 0b0101, err := -1 }) = .instr (.setError (-1)) ∧
    decode (.host { code := 0b0110, now := 1000 }) = .instr (.run 1000) ∧
    decode (.host { code := 0 }) = .reject .badHostOp ∧ decode (.host { code := 15 }) = .reject .badHostOp := by
  decide

/-- Each row's word of the opcode table: the instruction it names. -/
theorem test_table_words :
    decodeTableWord 32 0x00000800 = some (.processShortBuffer ⟨0, 1⟩ []) ∧
    decodeTableWord 32 0x00000A00 = some (.setCurrentRel ⟨0, 1⟩ [0, 0, 0, 0]) ∧
    decodeTableWord 32 0x00001100 = some (.ping ⟨0, 1⟩ []) ∧
    decodeTableWord 32 0x00003800 = some (.pollRotorPos ⟨0, 1⟩ []) ∧
    decodeTableWord 16 0x0800 = some (.sbFwVersion ⟨0, 1⟩ 0 0 [0, 0, 0, 0, 0]) ∧
    decodeTableWord 16 0x0832 = some (.sbGetValuesSelective ⟨0, 1⟩ 0 0 [0, 0, 0, 0, 0]) ∧
    decodeTableWord 8 1 = some (.configure false false 0 0) ∧ decodeTableWord 8 2 = some .openBus ∧
    decodeTableWord 8 3 = some (.setRemoteEnable false) ∧ decodeTableWord 8 4 = some (.setVoltage 0) ∧
    decodeTableWord 8 5 = some (.setError 0) ∧ decodeTableWord 8 6 = some (.run 0) ∧
    decodeTableWord 8 7 = none ∧ decodeTableWord 32 0x00001200 = none := by decide

/-- A placed word runs as the very next step: `PING` replies, a torque command in local mode is dropped,
`CONFIGURE` configures. -/
theorem test_placed_words_run :
    sees (step (State.reset.withFetchWord 32 0x00001100)) (fun t => t.out == [.tx (ext 0x00001201 [])]) = true ∧
    sees (step (State.reset.withFetchWord 32 0x00000A00))
      (fun t => t.drops.map (·.1) == [.scrRemoteDisabled]) = true ∧
    sees (step (State.reset.withFetchWord 8 1)) (fun t => t.lc == .configured) = true := by decide

/-! ### Host operations -/

/-- LC3, LC9. -/
theorem test_configure :
    sees (exec (.configure true true 42 500000) fresh)
      (fun t => t.lc == .configured && t.nodeAddr == 0x2A && t.bitrate == 500000 && t.tpBound) = true ∧
    sees (exec (.configure true true 43 500000) configured)
      (fun t => t.refused == some .configureTwice && t.nodeAddr == 0x2A) = true := by decide

/-- LC9, LC2, LC4, LC6. -/
theorem test_open :
    sees (exec .openBus configured) (fun t => t.lc == .opened && t.filtId == 0x2A && t.filtMask == 0xFF &&
      t.filtExt && t.busStarted && !t.loopback) = true ∧
    sees (exec .openBus fresh) (fun t => t.refused == some .openBeforeConfigure) = true ∧
    sees (exec .openBus { configured with tpBound := false })
      (fun t => t.refused == some .openUnboundTransport) = true ∧
    sees (exec .openBus node) (fun t => t.refused == some .openTwice) = true := by decide

/-- LC8, LC11. -/
theorem test_setters :
    sees (exec (.setVoltage 0x42400000) fresh) (fun t => t.voltage == 0x42400000 && t.refused == none) = true ∧
    sees (exec (.setError (-1)) fresh) (fun t => t.error == -1 && t.refused == none) = true ∧
    sees (exec (.setRemoteEnable true) fresh) (fun t => t.remoteEn && t.refused == none) = true ∧
    sees (exec (.setRemoteEnable true) (running [])) (fun t => t.refused == some .hostOpDuringRun) = true := by
  decide

/-- LC1, LC5, LC10, and the unbound motor of P5. -/
theorem test_run_refusals :
    sees (exec (.run 0) fresh) (fun t => t.phase == .idle && t.refused == none) = true ∧
    sees (exec (.run 5) configured) (fun t => t.refused == some .runBeforeOpen) = true ∧
    sees (exec (.run 5) { node with motorBound := false, rxQueue := [ext 0x0000112A []] })
      (fun t => t.phase == .idle && t.rxQueue == [ext 0x0000112A []]) = true ∧
    sees (step { fresh with inputs := [.host { code := 7 }] }) (fun t => t.refused == some .badHostOp) = true := by
  decide

/-- W1, W2, W5, W7. -/
theorem test_run_watchdog :
    sees (exec (.run 900000) remote) (fun t => t.motor.enabled && t.out == []) = true ∧
    sees (exec (.run 900001) remote)
      (fun t => !t.motor.enabled && t.out == [.motorDisable, .diag .wdTimeout] && t.lastComm == 0) = true ∧
    sees (exec (.run 4000000000) node) (fun t => t.motor.enabled) = true ∧
    sees (exec (.run 0x000D0000) { remote with lastComm := 0xFFFF0000 }) (fun t => !t.motor.enabled) = true := by
  decide

/-- Other widths than the defaults (R6, R231, R31, D4, D30), by hand: with 24 bits the clock wraps between `0xFF0000` and
`0x0D0000`, 917504 µs apart; a 16-bit clock cannot reach 900001; 8 bits of `ERR_W`; `LAST_COMM_INIT` at power-on. -/
theorem test_other_widths :
    sees (exec (.run 0x0D0000) { remote with lastComm := 0xFF0000, params := { params with clkW := 24 } })
      (fun t => !t.motor.enabled && t.now == 0x0D0000) = true ∧
    sees (exec (.run 0x1FFFF) { remote with params := { params with clkW := 16 } })
      (fun t => t.motor.enabled && t.now == 0xFFFF) = true ∧
    sees (exec (.setError (-128)) { fresh with params := { params with errW := 8 } }) (fun t => t.error == -128) = true ∧
    (State.powerOn { params with clkW := 8, lastCommInit := 200 }).lastComm = 200 := by decide

/-! ### Received commands -/

/-- PG2 and PG3. -/
theorem test_ping :
    sees (exec (.ping hdr [1, 2, 3, 4, 5, 6, 7, 8]) node) (fun t => t.out == [.tx (ext 0x0000122A [])]) = true ∧
    sees (exec (.ping hdr []) { node with nodeAddr := 1 }) (fun t => t.out == [.tx (ext 0x00001201 [])]) = true := by
  decide

/-- A1 to A8: the codes of `ANGLE_IDEAL`. -/
theorem test_rotor_codes :
    angleIdeal 0x00000000 = some 0 ∧ angleIdeal 0x3E800000 = some 1432394 ∧
    angleIdeal 0x3FC90FDB = some 9000000 ∧ angleIdeal 0x40490FDB = some 18000000 ∧
    angleIdeal 0x3F800000 = some 5729577 ∧ angleIdeal 0xBDCCCCCD = some 35427042 ∧
    angleIdeal 0x40C90FDB = some 1 ∧ angleIdeal 0xB3D6BF95 = some 35999999 ∧
    angleIdeal 0x3FC90FF9 = some 9000020 ∧ angleIdeal 0x7FC00000 = none ∧ angleIdeal 0x7F800000 = none := by
  decide +kernel

/-- A6. -/
theorem test_poll :
    sees (exec (.pollRotorPos hdr []) { node with motor := { node.motor with shaftAngle := 0xBDCCCCCD } })
      (fun t => t.out == [.tx (ext 0x0000382A [0x02, 0x1C, 0x92, 0xE2])] && t.draws == 0) = true := by
  decide +kernel

/-- S1 to S13: the targets of `TORQUE_B64`. -/
theorem test_torque_targets :
    pack32 (torqueB64 0x40000000 50000) = some 0x3F800000 ∧
    pack32 (torqueB64 0x40400000 0xFFFE7960) = some 0xC0400000 ∧
    pack32 (torqueB64 0x40A00000 0) = some 0x00000000 ∧ pack32 (torqueB64 0xC0A00000 0) = some 0x80000000 ∧
    pack32 (torqueB64 0x40000000 200000) = some 0x40800000 ∧
    pack32 (torqueB64 0x3F800000 0x7FFFFFFF) = some 0x46A7C5AC ∧
    pack32 (torqueB64 0x3F800000 0x80000000) = some 0xC6A7C5AC ∧
    pack32 (torqueB64 0x3F800000 1) = some 0x3727C5AC ∧
    pack32 (torqueB64 0x41200000 12345) = some 0x3F9E0419 := by decide +kernel

/-- S15, S16, S17. -/
theorem test_set_current :
    sees (exec (.setCurrentRel hdr [0x00, 0x00, 0xC3, 0x50, 0x11]) remote)
      (fun t => t.motor.target == 0x3F800000 && t.out == [.motorTarget 0x3F800000] && t.lastComm == 0) = true ∧
    sees (exec (.setCurrentRel hdr [0x00, 0x00, 0xC3]) remote)
      (fun t => t.motor.target == 0x3F400000 && t.drops.map (·.1) == [.scrShort]) = true ∧
    sees (exec (.setCurrentRel hdr [0x00, 0x00, 0xC3]) node)
      (fun t => t.drops.map (·.1) == [.scrRemoteDisabled]) = true := by decide +kernel

/-- SB3, SB5, SB2. -/
theorem test_process_short_buffer :
    sees (exec (.processShortBuffer hdr [0x05, 0x00, 0x01]) node)
      (fun t => t.drops.map (·.1) == [.sbUnknownSub]) = true ∧
    sees (exec (.processShortBuffer hdr [0x05, 0xFF, 0x00]) node)
      (fun t => t.out == [.tx (ext 0x00000805 [0x2A, 0x00, 0x00, 0x01, 0x02])]) = true ∧
    sees (exec (.processShortBuffer hdr [0x05, 0x00]) node) (fun t => t.drops.map (·.1) == [.sbShort]) = true := by
  decide

/-- SB6, SB8. -/
theorem test_fw_version :
    sees (exec (.sbFwVersion hdr 0x00 0x00 []) node)
      (fun t => t.out == [.tx (ext 0x00000800 [0x2A, 0x00, 0x00, 0x01, 0x02])]) = true ∧
    sees (exec (.sbFwVersion hdr 0x2A 0x00 [0x99, 0x99]) node)
      (fun t => t.out == [.tx (ext 0x0000082A [0x2A, 0x00, 0x00, 0x01, 0x02])]) = true := by decide

/-- GV1, GV3, GV10, and GV1 ungated. -/
theorem test_get_values_side_effects :
    sees (exec (.sbGetValuesSelective hdr 5 0 [0, 0, 0, 0])
        { node with now := 77, motor := { node.motor with enabled := false } })
      (fun t => t.motor.enabled && t.out == [.motorEnable] && t.lastComm == 0) = true ∧
    sees (exec (.sbGetValuesSelective hdr 5 0 [0, 0, 0, 0])
        { remote with now := 77, motor := { node.motor with enabled := false } })
      (fun t => !t.motor.enabled && t.out == [] && t.lastComm == 77) = true ∧
    sees (exec (.sbGetValuesSelective hdr 5 0 [0, 0, 1]) { node with motor := { node.motor with enabled := false } })
      (fun t => !t.motor.enabled && t.out == [] && t.drops.map (·.1) == [.gvsShort]) = true ∧
    sees (exec (.sbGetValuesSelective hdr 5 0 [0, 0, 0, 0])
        { node with now := 77, params := { params with wdRefreshGated := false } })
      (fun t => t.lastComm == 77) = true := by decide

/-- GV7, GV8. -/
theorem test_get_values_replies :
    sees (exec (.sbGetValuesSelective hdr 5 0 [0xFF, 0xFF, 0xFF, 0xFF])
        { remote with voltage := 0x41CCCCCD, error := 7 })
      (fun t => t.out == [.tx (ext 0x00000805 [0x2A, 0x00, 0x32, 0x00, 0x00, 0x01, 0x00, 0x01]),
        .tx (ext 0x00000805 [0x2A, 0x00, 0x32, 0x00, 0x00, 0x80, 0x00, 0x01])]) = true ∧
    sees (exec (.sbGetValuesSelective hdr 5 0 [0x00, 0x01, 0x00, 0x00]) { remote with now := 9 })
      (fun t => t.out == [] && t.lastComm == 9) = true := by decide +kernel

/-- The voltage bytes of L2.7. -/
theorem test_voltage_bytes :
    vbyteB32 0x4144CCCD = some 0x00 ∧ vbyteB32 0x41CCB852 = some 0x00 ∧ vbyteB32 0x41CCCCCD = some 0x01 ∧
    vbyteB32 0x42C80000 = some 0x03 ∧ vbyteB32 0xBD4CCCCD = some 0x00 ∧ vbyteB32 0xBF800000 = some 0xFF ∧
    vbyteB32 0xC1CCCCCD = some 0xFF ∧ vbyteB32 0xC1CD999A = some 0xFE ∧ vbyteB32 0x454CCB33 = some 0x7F ∧
    vbyteB32 0xC54CCCCD = some 0x80 ∧ vbyteB32 0x454CCCCD = none ∧ vbyteB32 0xC54CCE66 = none ∧
    vbyteB32 0x7FC00000 = none ∧ vbyteB32 0x7F800000 = none := by decide +kernel

/-! ### The checks before routing -/

/-- F1, F3, F7, LC12. -/
theorem test_checks_exact :
    sees (step (running [⟨false, 0x12A, []⟩])) (fun t => t.drops.map (·.1) == [.notAccepted]) = true ∧
    sees (step (running [ext 0x0000112B []])) (fun t => t.drops.map (·.1) == [.notAccepted]) = true ∧
    sees (step (running [ext 0x0000FF2A []])) (fun t => t.drops.map (·.1) == [.unknownCommand]) = true ∧
    sees (step (running [ext 0x0000112A [0, 0, 0, 0, 0, 0, 0, 0, 0]]))
      (fun t => t.refused == some .rxLenGt8) = true := by decide

/-- F2, F4, F5: without the transport's filter. -/
theorem test_checks_unfiltered :
    let open_ (f : Frame) : State := { running [f] with params := { params with acceptFilter := .none } }
    sees (step (open_ ⟨false, 0x12A, []⟩)) (fun t => t.drops.map (·.1) == [.notExtended]) = true ∧
    sees (step (open_ (ext 0x0000112B []))) (fun t => t.out == [.tx (ext 0x0000122A [])]) = true ∧
    sees (step (open_ (ext 0x00001100 []))) (fun t => t.drops.map (·.1) == [.address]) = true := by decide

/-! ### Witnesses: a state and operands that meet the hypotheses of each statement -/

/-- Boundary instructions of every shape are well formed. -/
theorem wit_DecodeOfEncodeIsIdentity :
    (Instr.setCurrentRel ⟨0x1FFF, 0xFF⟩ [1, 2, 3, 4, 5, 6, 7, 8]).wf = true ∧
    (Instr.processShortBuffer ⟨0, 0⟩ []).wf = true ∧ (Instr.sbFwVersion hdr 0 0xFF [1, 2, 3, 4, 5]).wf = true ∧
    (Instr.sbGetValuesSelective hdr 0 0 []).wf = true ∧ (Instr.run 0xFFFFFFFF).wf = true := by decide

theorem wit_EncodeOfDecodedFrameIsIdentity :
    decodeFrame (ext 0x1FFF11FF [1, 2, 3, 4, 5, 6, 7, 8]) = .instr (.ping ⟨0x1FFF, 0xFF⟩ [1, 2, 3, 4, 5, 6, 7, 8]) := by
  decide

/-- The three boundary codes. -/
theorem wit_HostCodesNameTheirOperations :
    ∀ c ∈ [0x0#4, 0x7#4, 0xF#4], { fresh with inputs := [.host { code := c }] }.sound ∧
      { fresh with inputs := [.host { code := c }] }.inputs = [.host { code := c }] ∧ (c = 0 ∨ 7 ≤ c.toNat) := by
  decide

theorem wit_PlacedTableWordRunsNext :
    decodeTableWord 8 6 = some (.run 0) ∧ decodeTableWord 16 0x0832 =
      some (.sbGetValuesSelective ⟨0, 1⟩ 0 0 [0, 0, 0, 0, 0]) := by decide

theorem wit_StepRunsHostOperation :
    let s : State := { fresh with inputs := [.host { code := 2 }] }
    s.sound ∧ s.inputs = [.host { code := 2 }] ∧ decodeHost { code := 2 } = .instr .openBus := by decide

/-- The three clauses: nothing listed, the turn given, and the turn left by a peer that does not stop. -/
theorem wit_StepRunsReceivedFrame :
    let f : Frame := ext 0x0000112A []
    (let s : State := running [f]
     s.sound ∧ s.phase = .drain ∧ s.rxQueue = [f] ∧ screenFrame s f = .pass ∧
       decodeFrame f = .instr (.ping hdr []) ∧ s.outsideWaits = true) ∧
    (let s : State := { running [f] with inputs := [.tick] }
     s.sound ∧ s.phase = .drain ∧ s.rxQueue = [f] ∧ screenFrame s f = .pass ∧ s.inputs = [.tick]) ∧
    (let p : Peer := .repeats [none, some f]
     let s : State := { running [f] with inputs := [.unending p] }
     s.sound ∧ s.phase = .drain ∧ s.rxQueue = [f] ∧ screenFrame s f = .pass ∧ s.inputs = [.unending p] ∧
       s.params.rxArrivals = .allowed ∧ p.next.1 = none) := by decide

theorem wit_FrameChecksRunInOrder : (running [ext 0x0000112A []]).sound := by decide

theorem wit_UnknownCommandIsDropped :
    screenFrame node (ext 0x0000122A []) = .pass ∧ (0x0000122A#29).extractLsb' 8 8 ≠ 8#8 ∧
    (0x0000122A#29).extractLsb' 8 8 ≠ 10#8 ∧ (0x0000122A#29).extractLsb' 8 8 ≠ 17#8 ∧
    (0x0000122A#29).extractLsb' 8 8 ≠ 56#8 := by decide

theorem wit_OpenedFilterMatchesOwnAddress : node.Inv ∧ node.lc = .opened := by decide

/-- The three cases: own address, own address 0, and no filter. -/
theorem wit_AddressPredicateConsequences :
    (node.Inv ∧ node.lc = .opened ∧ node.params.acceptFilter = .exact ∧ accepts node (ext 0x0000112A []) = true ∧
      node.nodeAddr ≠ 0) ∧
    (nodeZero.Inv ∧ nodeZero.lc = .opened ∧ nodeZero.params.acceptFilter = .exact ∧
      accepts nodeZero (ext 0x00001100 []) = true ∧ nodeZero.nodeAddr = 0) ∧
    (let s : State := { node with params := { params with acceptFilter := .none } }
     s.lc = .opened ∧ s.params.acceptFilter = .none ∧ (ext 0x000011FF []).id.extractLsb' 0 8 ≠ 0#8) :=
  ⟨by decide, by decide, by decide⟩

/-- Bits 28:16 differ; and beside them the reserved byte of a short buffer. -/
theorem wit_IgnoredFrameBitsChangeNothing :
    (node.Inv ∧ node.lc = .opened ∧
      (ext 0x1FFF112A []).id.extractLsb' 0 16 = (ext 0x0000112A []).id.extractLsb' 0 16) ∧
    (let f : Frame := ext 0x0001082A [5, 0xFF, 0]
     let g : Frame := ext 0x0000082A [5, 0x00, 0]
     f.ext = g.ext ∧ f.len = g.len ∧ f.id.extractLsb' 0 16 = g.id.extractLsb' 0 16 ∧
       f.id.extractLsb' 8 8 = 8#8 ∧ ∀ k, k ≠ 1 → f.data[k]? = g.data[k]?) := by
  refine ⟨by decide, rfl, rfl, by decide, by decide, fun k hk => ?_⟩
  match k with
  | 0 => rfl
  | 1 => exact absurd rfl hk
  | 2 => rfl
  | _ + 3 => rfl

theorem wit_DroppedFrameHasNoEffect :
    ∃ t, processFrame (ext 0x0000FF2A []) node = .next t ∧ t.drops ≠ node.drops := ⟨_, rfl, by decide⟩

/-- A frame of its own and one of a peer that does not stop: between `RUN`s and during one, started and not, and a
`RUN` without arrivals. -/
theorem wit_ArrivingFramesJoinTheQueue :
    (Peer.repeats [some (ext 0x0000112A [])]).next.1 = some (ext 0x0000112A []) ∧
    ∀ e ∈ [[Event.rx (ext 0x0000112A [])], [.unending (.repeats [some (ext 0x0000112A [])])]],
      (let s : State := { node with inputs := e }
       s.sound ∧ s.inputs = e ∧ s.phase = .idle ∧ s.busStarted = true) ∧
      (let s : State := { fresh with inputs := e }
       s.sound ∧ s.inputs = e ∧ s.phase = .idle ∧ s.busStarted = false) ∧
      (let s : State := { running [] with inputs := e }
       s.sound ∧ s.inputs = e ∧ s.params.rxArrivals = .allowed ∧ s.busStarted = true) ∧
      (let s : State := { running [] with inputs := e, params := { params with rxArrivals := .none } }
       s.sound ∧ s.inputs = e ∧ s.phase ≠ .idle ∧ s.params.rxArrivals = .none) := by decide

/-- The same five situations, of a remote frame of each boundary length. -/
theorem wit_RemoteFrameIsReceivedAsData :
    ∀ len ∈ [0, 8],
      let e : List Event := [.rxRemote true 0x0000112A len]
      (let s : State := { node with inputs := e }
       s.sound ∧ s.inputs = e ∧ s.phase = .idle ∧ s.busStarted = true) ∧
      (let s : State := { fresh with inputs := e }
       s.sound ∧ s.inputs = e ∧ s.phase = .idle ∧ s.busStarted = false) ∧
      (let s : State := { running [] with inputs := e }
       s.sound ∧ s.inputs = e ∧ s.phase ≠ .idle ∧ s.params.rxArrivals = .allowed ∧ s.busStarted = true) ∧
      (let s : State := { running [] with inputs := e, params := { params with rxArrivals := .none } }
       s.sound ∧ s.inputs = e ∧ s.phase ≠ .idle ∧ s.params.rxArrivals = .none) := by decide

/-- Between `RUN`s, waiting in one, and any step of one. -/
theorem wit_MotorInputsChangeOnlyBetweenRuns :
    (let s : State := { node with inputs := [.motor { enabled := some false }] }
     s.sound ∧ s.phase = .idle ∧ s.inputs = [.motor { enabled := some false }]) ∧
    (let s : State := { running [] with inputs := [.motor { enabled := some false, target := some 0 }] }
     s.sound ∧ s.phase ≠ .idle ∧ s.inputs = [.motor { enabled := some false, target := some 0 }]) ∧
    (running []).phase ≠ .idle ∧ ∃ t, step (running []) = .next t := ⟨by decide, by decide, by decide, _, rfl⟩

theorem wit_IdleBlockKeepsItsState : node.sound ∧ node.phase = .idle ∧ node.inputs = [] := by decide

theorem wit_EveryStepKeepsInvariant :
    (running [ext 0x0000112A []]).Inv ∧ ∃ t, step (running [ext 0x0000112A []]) = .next t := ⟨by decide, _, rfl⟩

theorem wit_RefusalMarkStays :
    { node with refused := some .openTwice }.refused = some .openTwice ∧
    ∃ t, exec (.setError 1) { node with refused := some .openTwice } = .next t := ⟨rfl, _, rfl⟩

theorem wit_ConfigureBindsAndStores :
    (fresh.phase = .idle ∧ fresh.lc = .unconfigured) ∧
    (configured.phase = .idle ∧ configured.lc ≠ .unconfigured ∧ configured.sound) := by decide

/-- The four clauses. -/
theorem wit_OpenInstallsFilterAndStarts :
    (configured.phase = .idle ∧ configured.lc = .configured ∧ configured.tpBound = true) ∧
    (fresh.phase = .idle ∧ fresh.lc = .unconfigured ∧ fresh.sound) ∧
    (node.phase = .idle ∧ node.lc = .opened ∧ node.sound) ∧
    (let s : State := { configured with tpBound := false }
     s.phase = .idle ∧ s.lc = .configured ∧ s.tpBound = false ∧ s.sound) := by decide

/-- Every lifecycle state, and both ends of the range of an error code. -/
theorem wit_SettersWriteTheirRegister :
    (fresh.phase = .idle ∧ configured.phase = .idle ∧ node.phase = .idle) ∧
    ∀ e ∈ [(-2147483648 : Int), 2147483647], -(2 ^ node.params.errW) ≤ 2 * e ∧ 2 * e < 2 ^ node.params.errW := by
  decide

/-- A setter in every lifecycle state, and an instruction that answers next. -/
theorem wit_SetterValuesPersist :
    (fresh.lc = .unconfigured ∧ configured.lc = .configured ∧ node.lc = .opened ∧ node.phase = .idle) ∧
    ∃ t, exec (.setError 7) node = .next t ∧ t.error ≠ node.error := ⟨by decide, _, rfl, by decide⟩

theorem wit_HostOperationDuringRunIsRefused :
    (Instr.run 5).fromBus = false ∧ (running []).phase ≠ .idle ∧ (running []).sound := by decide

theorem wit_LifecycleOnlyMovesForward :
    (∃ t, exec (.configure true true 42 500000) fresh = .next t ∧ t.lc ≠ fresh.lc) ∧
    ∃ t, exec .openBus configured = .next t ∧ t.lc ≠ configured.lc := ⟨⟨_, rfl, by decide⟩, _, rfl, by decide⟩

theorem wit_ConfigurationIsImmutable :
    (configured.lc ≠ .unconfigured ∧ ∃ t, step { configured with inputs := [.host { code := 2 }] } = .next t) ∧
    node.lc = .opened ∧ ∃ t, step (running [ext 0x0000112A []]) = .next t := ⟨⟨by decide, _, rfl⟩, rfl, _, rfl⟩

/-- Each collaborator unbound, and a node that is not opened. -/
theorem wit_RunNeedsBoundOpenedNode :
    (fresh.phase = .idle ∧ fresh.tpBound = false) ∧
    (let s : State := { node with motorBound := false }
     s.phase = .idle ∧ s.motorBound = false) ∧
    (configured.phase = .idle ∧ configured.tpBound = true ∧ configured.motorBound = true ∧
      configured.lc ≠ .opened ∧ configured.sound) := by decide

theorem wit_RunChecksWatchdogThenDrains :
    remote.phase = .idle ∧ remote.tpBound = true ∧ remote.motorBound = true ∧ remote.lc = .opened := by decide

/-- An opened node with two frames, and a node whose motor is not bound. -/
theorem wit_RunIsOneTransaction :
    ∀ b, (runReady b).Inv ∧ (runReady b).sound ∧ (runReady b).phase = .idle ∧
      (runReady b).inputs = [.host { code := 6, now := 900001 }] ∧
      ((runReady b).lc = .opened ∨ (runReady b).tpBound = false ∨ (runReady b).motorBound = false) ∧
      ∀ f ∈ (runReady b).rxQueue, f.len ≤ 8 := by decide

/-- The poll that finds the queue empty; short queues while nothing arrives, and beside a peer under `NONE`; and the peer
that keeps the `RUN` from ending. -/
theorem wit_RunEndsOnlyAtEmptyPoll :
    let f : Frame := ext 0x0000112A [1, 2, 3, 4, 5, 6, 7, 8]
    let flood : List Event := [.unending (.repeats [some f, none])]
    (∃ t, step (running []) = .next t ∧ t.phase ≠ .drain) ∧
    (∀ q ∈ [[], [f]], (running q).Inv ∧ (running q).sound ∧ (running q).phase = .drain ∧
      (running q).outsideWaits = true ∧ ∀ f ∈ (running q).rxQueue, f.len ≤ 8) ∧
    (let s : State := { running [f] with inputs := flood, params := { params with rxArrivals := .none } }
     s.Inv ∧ s.outsideWaits = true) ∧
    (let s : State := { running [f] with inputs := flood }
     s.Inv ∧ s.sound ∧ s.phase = .drain ∧ s.params.rxArrivals = .allowed ∧ s.inputs = flood ∧ f.len ≤ 8 ∧
       ∀ g ∈ s.rxQueue, g.len ≤ 8) := ⟨⟨_, rfl, by decide⟩, by decide, by decide, by decide⟩

theorem wit_RemoteDisabledNeverStopsMotor :
    let s : State := { node with inputs := [.host { code := 6, now := 900001 }] }
    s.remoteEn = false ∧ s.motor.enabled = true ∧ (∀ m rest, s.inputs ≠ .motor m :: rest) ∧
      ∃ t, step s = .next t := ⟨rfl, rfl, by simp, _, rfl⟩

/-- Off by the watchdog, on by a request in local mode. -/
theorem wit_MotorTransitionsHaveTheirCauses :
    (∃ t, exec (.run 900001) remote = .next t ∧ remote.motor.enabled = true ∧ t.motor.enabled = false) ∧
    ∃ t, exec (.sbGetValuesSelective hdr 5 0 [0, 0, 0, 0]) { node with motor := ⟨false, 0, 0, 0⟩ } = .next t ∧
      t.motor.enabled = true := ⟨⟨_, rfl, rfl, rfl⟩, _, rfl, rfl⟩

theorem wit_OnlyValueRequestsRefreshWatchdog :
    asksValues (.setCurrentRel hdr [0, 0, 0, 0]) = false ∧ asksValues (.processShortBuffer hdr [5, 0, 0]) = false ∧
    (∃ t, exec (.setCurrentRel hdr [0, 0, 0, 0]) remote = .next t) ∧
    ∃ t, processFrame (ext 0x0000082A [5, 0, 50, 0, 0, 0, 0]) { remote with now := 5 } = .next t ∧
      t.lastComm ≠ remote.lastComm := ⟨by decide, by decide, ⟨_, rfl⟩, _, rfl, by decide⟩

/-- A `RUN` that fires; a later one; a received command; and a step of the window. -/
theorem wit_WatchdogFiresOncePerWindow :
    (∃ t, exec (.run 900001) remote = .next t ∧ t.out ≠ remote.out) ∧
    (∃ t, exec (.run 2000000) { remote with motor := ⟨false, 0, 0, 0⟩ } = .next t) ∧
    (remote.remoteEn = true ∧ ∃ t, exec (.sbGetValuesSelective hdr 5 0 [0, 0, 0, 0]) remote = .next t) ∧
    (let s : State := { remote with motor := ⟨false, 0, 0, 0⟩, inputs := [.host { code := 6, now := 900001 }] }
     s.remoteEn = true ∧ s.motor.enabled = false ∧ (∀ m rest, s.inputs ≠ .motor m :: rest) ∧
       ∃ t, step s = .next t) :=
  ⟨⟨_, rfl, by decide⟩, ⟨_, rfl⟩, ⟨rfl, _, rfl⟩, rfl, rfl, by simp, _, rfl⟩

/-- An angle that has a code, and one that has none. -/
theorem wit_PollRepliesRotorCode :
    angleIdeal 0x3FC90FDB = some 9000000 ∧ angleIdeal 0x7F800000 = none ∧ params.angleCode = .default ∧
    { params with angleCode := .implementation }.angleCode = .implementation := by decide +kernel

/-- A target that is a number and one that is a NaN, another arithmetic, and the two drops. -/
theorem wit_SetCurrentRelWritesTarget :
    (remote.remoteEn = true ∧ remote.params.torqueArith = .default) ∧
    pack32 (torqueB64 0x40000000 (be32 0 0 0xC3 0x50)) = some 0x3F800000 ∧ pack32 (torqueB64 0x7FC00000 1) = none ∧
    { params with torqueArith := .implementation }.torqueArith = .implementation ∧
    node.remoteEn = false ∧ ([0, 0, 0] : List Byte).length < 4 := by decide +kernel

theorem wit_ProcessShortBufferDelegates :
    (1#8 ≠ 0 ∧ 1#8 ≠ 50) ∧ (255#8 ≠ 0 ∧ 255#8 ≠ 50) ∧ ([5, 0] : List Byte).length < 3 := by decide

/-- A stamp that is given and a voltage that has a byte under the default; and the short request. -/
theorem wit_GetValuesSelectiveEffects :
    node.params.refreshStamp = .cycleNow ∧
    (let s : State := { node with voltage := 0x41CCCCCD }
     (match s.params.vbyteArith with
       | .default => vbyteB32 s.voltage
       | .implementation => Config.vbyteOther s.voltage) = some 0x01) ∧
    ([0, 0, 1] : List Byte).length < 4 := by decide +kernel

theorem wit_LocalRequestEnablesMotor :
    ({ node with motor := ⟨false, 0, 0, 0⟩ }.motor.enabled = false ∧ node.remoteEn = false) ∧
    (node.motor.enabled = true ∧ remote.remoteEn = true) := by decide

theorem wit_StatusByteReportsError :
    (be32 0 0 0x80 0).getLsbD 15 = true ∧ { node with error := -1 }.error ≠ 0 ∧ node.error = 0 := by decide

/-- GV8 and GV9: bits 16 and 7. -/
theorem wit_OtherMaskBitsAreUnanswered :
    (be32 0 1 0 0).getLsbD 8 = (be32 0 0 0 0x80).getLsbD 8 ∧
    (be32 0 1 0 0).getLsbD 15 = (be32 0 0 0 0x80).getLsbD 15 ∧ (be32 0 0 0 0x80).getLsbD 8 = false ∧
    (be32 0 0 0 0x80).getLsbD 15 = false ∧ remote.params.refreshStamp = .cycleNow ∧ remote.remoteEn = true ∧
    ({ node with motor := ⟨false, 0, 0, 0⟩ }.motor.enabled = false ∧ node.remoteEn = false) := by decide

/-- Gated and ungated, and a clock that wraps before the next `RUN`. -/
theorem wit_FreshStampLiesBeforeNextRun :
    let s : State := { remote with
      now := 0xFFFFFFFF, params := { params with refreshStamp := .freshRead }
      inputs := [.tick, .host { code := 6, now := 5 }] }
    s.params.refreshStamp = .freshRead ∧ s.remoteEn = true ∧ nextRunNow s.inputs = some 5 ∧
    { params with wdRefreshGated := false }.wdRefreshGated = false := by decide

theorem wit_TransmittedFramesAreComposed : ∃ t, exec (.ping hdr []) node = .next t := ⟨_, rfl⟩

/-- A frame of each sub-command, and each instruction. -/
theorem wit_ShortBufferRepliesAreAddressed :
    (∀ f ∈ [ext 0x0000082A [5, 0, 0], ext 0x0000082A [5, 0, 50, 0, 0, 0x81, 0]], f.id.extractLsb' 8 8 = 8#8) ∧
    (∃ t, processFrame (ext 0x0000082A [5, 0, 0]) node = .next t ∧ t.out ≠ node.out) ∧
    (∃ t, processFrame (ext 0x0000082A [5, 0, 50, 0, 0, 0x80, 0]) node = .next t ∧ t.out ≠ node.out) ∧
    (∃ t, exec (.sbFwVersion hdr 5 0 []) node = .next t) ∧
    (∃ t, exec (.sbGetValuesSelective hdr 5 0 [0, 0, 0x81, 0]) node = .next t) ∧
    ∃ t, exec (.processShortBuffer hdr [5, 0, 0]) node = .next t :=
  ⟨by decide, ⟨_, rfl, by decide⟩, ⟨_, rfl, by decide⟩, ⟨_, rfl⟩, ⟨_, rfl⟩, _, rfl⟩

theorem wit_RepeatedQueriesReplyIdentically :
    (∃ t u, exec (.ping hdr []) node = .next t ∧ exec (.ping hdr [1]) t = .next u) ∧
    ∃ t u, exec (.sbFwVersion hdr 5 0 []) node = .next t ∧ exec (.sbFwVersion hdr 5 9 []) t = .next u :=
  ⟨⟨_, _, rfl, rfl⟩, _, _, rfl, rfl⟩

/-- A received command and a `RUN`. -/
theorem wit_WritersAreConfined :
    ((Instr.ping hdr []).fromBus = true ∧ ∃ t, exec (.ping hdr []) node = .next t) ∧
    ∃ now t, Instr.run 900001 = .run now ∧ exec (.run 900001) remote = .next t := ⟨⟨rfl, _, rfl⟩, _, _, rfl, rfl⟩

theorem wit_TracesOnlyGrow : ∃ t, step (running [ext 0x0000112A []]) = .next t ∧ t.out ≠ [] := ⟨_, rfl, by decide⟩

theorem wit_OwnFramesNeverReenter :
    let s : State := running [ext 0x0000112A []]
    s.Inv ∧ s.lc = .opened ∧ (∀ f rest, s.inputs ≠ .rx f :: rest) ∧
      (∀ e id n rest, s.inputs ≠ .rxRemote e id n :: rest) ∧ (∀ p rest, s.inputs ≠ .unending p :: rest) ∧
      ∃ t, step s = .next t :=
  ⟨by decide, rfl, by simp [running, node, configured, fresh, State.reset, State.powerOn],
    by simp [running, node, configured, fresh, State.reset, State.powerOn],
    by simp [running, node, configured, fresh, State.reset, State.powerOn], _, rfl⟩

/-- The hypotheses, for both formats; then by IEEE 754: below the middle, in the middle of two values, zero, and both sides
of the threshold of overflow, `2^128 - 2^103`, which itself rounds to an infinity. -/
theorem wit_RoundingIsToNearestEven :
    (2 ≤ binary32.prec ∧ binary32.minExp ≤ binary32.maxExp ∧ 2 ≤ binary64.prec ∧ binary64.minExp ≤ binary64.maxExp) ∧
    roundRatio binary32 false 1 3 = .fin false 11184811 (-25) ∧
    roundRatio binary32 true 16777217 1 = .fin true 8388608 1 ∧
    roundRatio binary32 true 0 7 = .fin true 0 (-149) ∧
    roundRatio binary32 false (2 ^ 128 - 2 ^ 103 - 1) 1 = .fin false (2 ^ 24 - 1) 104 ∧
    roundRatio binary32 false (2 ^ 128 - 2 ^ 103) 1 = .inf false := by
  decide +kernel

/-- Both sides of the threshold as the statement writes it. -/
theorem wit_RoundingIsToNearestEven_threshold :
    ((2 : ℚ) ^ binary32.prec - 1 / 2) * 2 ^ binary32.maxExp ≤ ((2 ^ 128 - 2 ^ 103 : ℕ) : ℚ) / (1 : ℕ) ∧
    (((2 ^ 128 - 2 ^ 103 - 1 : ℕ) : ℚ) / (1 : ℕ) < ((2 : ℚ) ^ binary32.prec - 1 / 2) * 2 ^ binary32.maxExp) := by
  norm_num [binary32]

/-- A normal limit, the least subnormal, and zero. -/
theorem wit_FullTorqueIsTheCurrentLimit :
    unpack32 0x40000000 = .fin false 8388608 (-22) ∧ unpack32 0x80000001 = .fin true 1 (-149) ∧
    unpack32 0 = .fin false 0 (-149) := by decide +kernel

theorem wit_TorqueOfSpecialLimits :
    unpack32 0x7FC00000 = .nan ∧ unpack32 0xFF800000 = .inf true ∧ (1#32 ≠ 0 ∧ 0xFFFFFFFF#32 ≠ 0) := by
  decide +kernel

theorem wit_RotorCodeIsExactInRealArithmetic :
    unpack32 0xBDCCCCCD = .fin true 13421773 (-27) ∧ unpack32 0x7F800000 = .inf false := by decide +kernel

theorem wit_RotorCodeRange : angleIdeal 0xB3D6BF95 = some 35999999 ∧ angleIdeal 0 = some 0 := by decide +kernel

end Sys2Proof.Tests
end

section
/-! SUPPORT. The byte order of words (R9, R61) and the values at power-on (R260). -/

namespace Sys2Proof.Machine

/-- Appending a byte multiplies by 256 and adds it. -/
theorem toNat_append_byte {n : Nat} (x : BitVec n) (b : Byte) : (x ++ b).toNat = x.toNat * 2 ^ 8 + b.toNat := by
  rw [BitVec.toNat_append, Nat.shiftLeft_eq, mul_comm, Nat.two_pow_add_eq_or_of_lt b.isLt]

theorem toNat_be32 (b0 b1 b2 b3 : Byte) :
    (be32 b0 b1 b2 b3).toNat = b0.toNat * 2 ^ 24 + b1.toNat * 2 ^ 16 + b2.toNat * 2 ^ 8 + b3.toNat := by
  have h : (be32 b0 b1 b2 b3).toNat = ((b0.toNat * 2 ^ 8 + b1.toNat) * 2 ^ 8 + b2.toNat) * 2 ^ 8 + b3.toNat := by
    rw [← toNat_append_byte, ← toNat_append_byte, ← toNat_append_byte]; rfl
  rw [h]; ring

/-- A byte of a word, by its value. -/
theorem extractLsb'_eq_of_toNat {v : Word} {b : Byte} {k : Nat} (h : v.toNat / 2 ^ k % 2 ^ 8 = b.toNat) :
    v.extractLsb' k 8 = b := by
  apply BitVec.eq_of_toNat_eq
  rw [BitVec.extractLsb'_toNat, Nat.shiftRight_eq_div_pow, h]

theorem be32Bytes_be32 (b0 b1 b2 b3 : Byte) : be32Bytes (be32 b0 b1 b2 b3) = [b0, b1, b2, b3] := by
  have h := toNat_be32 b0 b1 b2 b3
  have h0 := b0.isLt; have h1 := b1.isLt; have h2 := b2.isLt; have h3 := b3.isLt
  rw [be32Bytes, extractLsb'_eq_of_toNat (b := b0) (by omega), extractLsb'_eq_of_toNat (b := b1) (by omega),
    extractLsb'_eq_of_toNat (b := b2) (by omega), extractLsb'_eq_of_toNat (b := b3) (by omega)]

theorem be32_extractLsb' (v : Word) :
    be32 (v.extractLsb' 24 8) (v.extractLsb' 16 8) (v.extractLsb' 8 8) (v.extractLsb' 0 8) = v := by
  apply BitVec.eq_of_toNat_eq
  rw [toNat_be32]
  simp only [BitVec.extractLsb'_toNat, Nat.shiftRight_eq_div_pow]
  omega

theorem leadingWord_be32Bytes (v : Word) : leadingWord (be32Bytes v) = some v :=
  congrArg some (be32_extractLsb' v)

end Sys2Proof.Machine

open Sys2Proof.Machine in
/-- Settles O4: the value of the four bytes fixes both directions. -/
theorem bigEndianBytesAndWordAreInverse : Obligations.BigEndianBytesAndWordAreInverse :=
  ⟨fun b0 b1 b2 b3 => ⟨toNat_be32 b0 b1 b2 b3, be32Bytes_be32 b0 b1 b2 b3⟩, leadingWord_be32Bytes⟩

/-- Settles O19: `State.powerOn` writes these values whatever the parameters (R260). -/
theorem powerOnValues : Obligations.PowerOnValues := by
  refine ⟨?_, rfl, rfl, rfl, rfl⟩
  rintro p _ rfl
  exact ⟨rfl, rfl, rfl, rfl, rfl, rfl, rfl, rfl, rfl, rfl, rfl⟩

end

section
/-! SUPPORT. A step only appends (R67): what one state adds to the traces of another, operation by operation, up to
`step`. -/

namespace Sys2Proof.Machine

/-- `t` comes after `s` in a run: the parameters stay, and the output trace, the drop trace and the draw counter only
grow. -/
structure Extends (s t : State) : Prop where
  params : t.params = s.params
  out : s.out <+: t.out
  drops : s.drops <+: t.drops
  draws : s.draws ≤ t.draws

namespace Extends

/-- An update that writes none of these fields. -/
theorem of_eq {s t : State} (hp : t.params = s.params) (ho : t.out = s.out) (hd : t.drops = s.drops)
    (hn : t.draws = s.draws) : Extends s t :=
  ⟨hp, ho ▸ List.prefix_refl _, hd ▸ List.prefix_refl _, hn.ge⟩

theorem refl (s : State) : Extends s s := of_eq rfl rfl rfl rfl

theorem trans {s t u : State} (h : Extends s t) (k : Extends t u) : Extends s u :=
  ⟨k.params.trans h.params, h.out.trans k.out, h.drops.trans k.drops, h.draws.trans k.draws⟩

theorem markRefused (r : RefuseReason) (s : State) : Extends s (s.markRefused r) := of_eq rfl rfl rfl rfl

theorem busUpdate (s : State) (last : Nat) (en : Bool) (target : B32) (os : List Output) (fs : List Frame)
    (ds : List (DropReason × Frame)) (n : Nat) : Extends s (busUpdate s last en target os fs ds n) :=
  ⟨rfl, List.prefix_append _ _, List.prefix_append _ _, Nat.le_add_right _ _⟩

theorem startRun (now : Nat) (s : State) : Extends s (startRun now s) := by
  rw [startRun_eq]
  split
  · exact ⟨rfl, List.prefix_append _ _, List.prefix_refl _, le_rfl⟩
  · exact of_eq rfl rfl rfl rfl

theorem receive (f : Frame) (s : State) : Extends s (receive f s) := by
  unfold Machine.receive
  split
  · exact of_eq rfl rfl rfl rfl
  · exact refl s

/-- The bytes of a remote frame are draws (R85). -/
theorem receiveRemote (ext : Bool) (id : Ident) (len : Nat) (s : State) :
    Extends s (receiveRemote ext id len s) :=
  have hdrew : Extends s (s.drew len) := ⟨rfl, List.prefix_refl _, List.prefix_refl _, Nat.le_add_right _ _⟩
  hdrew.trans (receive _ _)

theorem of_hostEffect {i : Instr} {s t : State} (h : HostEffect i s t) : Extends s t := by
  cases h with
  | run => exact startRun _ s
  | runNothing => exact refl s
  | configure | openBus | setRemoteEnable | setVoltage | setError => exact of_eq rfl rfl rfl rfl

theorem of_exec {i : Instr} {s t : State} (h : exec i s = .next t) : Extends s t := by
  cases hb : i.fromBus with
  | true =>
    obtain ⟨last, en, target, os, fs, ds, n, -, hx⟩ := exec_bus i hb s
    cases h.symm.trans hx
    exact busUpdate s last en target os fs ds n
  | false =>
    obtain ⟨r, hx⟩ | ⟨-, u, hx, he⟩ := exec_host i hb s
    · cases h.symm.trans hx
      exact markRefused r s
    · cases h.symm.trans hx
      exact of_hostEffect he

/-- `RXF` is loaded first, and is no part of a trace. -/
theorem of_processFrame {f : Frame} {s t : State} (h : processFrame f s = .next t) : Extends s t := by
  have hload : Extends s { s with rxf := f } := of_eq rfl rfl rfl rfl
  obtain ⟨-, hx⟩ | ⟨-, i, last, en, target, os, fs, ds, n, -, hx⟩ := processFrame_effect f s
  · cases h.symm.trans hx
    exact hload.trans (markRefused _ _)
  · cases h.symm.trans hx
    exact hload.trans (busUpdate _ _ _ _ _ _ _ _)

theorem of_blockCase {s t : State} (h : BlockCase s t) : Extends s t := by
  cases h with
  | idle => exact refl s
  | watchdog => exact startRun s.now s
  | ends => exact of_eq rfl rfl rfl rfl
  | frame f q _ _ _ hx => exact trans (t := { s with rxQueue := q }) (of_eq rfl rfl rfl rfl) (of_processFrame hx)

/-- What the outside world will do is no part of a trace. -/
theorem setInputs (es : List Event) (s : State) : Extends s { s with inputs := es } := of_eq rfl rfl rfl rfl

theorem of_stepCase {s t : State} (h : StepCase s t) : Extends s t := by
  cases h with
  | block _ hb => exact of_blockCase hb
  | tick rest _ _ hb => exact (setInputs rest s).trans (of_blockCase hb)
  | returned rest => exact setInputs rest s
  | motor => exact of_eq rfl rfl rfl rfl
  | rx f rest => exact (setInputs rest s).trans (receive f _)
  | rxRemote ext id len rest => exact (setInputs rest s).trans (receiveRemote ext id len _)
  | peerTurn p rest _ _ _ hb => exact (setInputs _ s).trans (of_blockCase hb)
  | peerFrame p rest f => exact (setInputs _ s).trans (receive f _)
  | badHost w rest => exact (setInputs rest s).trans (markRefused _ _)
  | host w rest i _ _ _ hx => exact (setInputs rest s).trans (of_exec hx)

end Extends

end Sys2Proof.Machine

open Sys2Proof.Machine in
/-- Settles O53: every case of a step is made of operations that extend the traces. -/
theorem tracesOnlyGrow : Obligations.TracesOnlyGrow := by
  intro s t h
  obtain ⟨hp, ho, hd, hn⟩ := Extends.of_stepCase (step_cases h).2
  exact ⟨hp, ho, hd, hn⟩

end

section
/-! SUPPORT. Rounding is to nearest, ties to even (R12): what the rounded significand `k` and the exponent `e` of its
last place are of the exact ratio `x`, then what follows for every other value of the format. -/

namespace Sys2Proof.Machine

/-- `k · 2^e` is `x` rounded in a format of unbounded exponent: `e` is the exponent of the last place of `x`, and `k`
is the nearest number of those units. -/
structure Rounding (fmt : FloatFormat) (x : ℚ) (k : Nat) (e : Int) : Prop where
  minExp_le : fmt.minExp ≤ e
  lt : x < 2 ^ fmt.prec * 2 ^ e
  lead : fmt.minExp < e → 2 ^ (fmt.prec - 1) * 2 ^ e ≤ x
  near : |x / 2 ^ e - k| ≤ 1 / 2
  tie : |x / 2 ^ e - k| = 1 / 2 → k % 2 = 0

/-- A positive ratio is rounded in units of its last place, and the result is normalised. -/
theorem roundRatio_rounding {fmt : FloatFormat} (hp : 1 ≤ fmt.prec) (neg : Bool) {num den : Nat} (hn : 0 < num)
    (hd : 0 < den) : ∃ k e, roundRatio fmt neg num den = normalise fmt neg k e ∧ Rounding fmt (num / den) k e := by
  obtain ⟨hlow, hhigh⟩ := floorLog2_spec hn hd
  obtain ⟨hnear, htie⟩ := divNearestEven_spec (num := num * 2 ^ (-ulpExp fmt num den).toNat)
    (den := den * 2 ^ (ulpExp fmt num den).toNat) (by positivity)
  rw [scaled_eq] at hnear htie
  refine ⟨_, ulpExp fmt num den, if_neg hn.ne', le_max_right _ _, ?_, fun hlt => ?_, hnear, htie⟩
  · have he : floorLog2 num den - ((fmt.prec : Int) - 1) ≤ ulpExp fmt num den := le_max_left _ _
    calc (num : ℚ) / den < 2 ^ (floorLog2 num den + 1) := hhigh
      _ ≤ 2 ^ ((fmt.prec : Int) + ulpExp fmt num den) := zpow_le_zpow_right₀ one_le_two (by omega)
      _ = 2 ^ fmt.prec * 2 ^ ulpExp fmt num den := by rw [zpow_add₀ two_ne_zero, zpow_natCast]
  · have he : ((fmt.prec - 1 : ℕ) : Int) + ulpExp fmt num den = floorLog2 num den := by
      unfold ulpExp at hlt ⊢; omega
    rw [← zpow_natCast, ← zpow_add₀ two_ne_zero, he]
    exact hlow

/-- An error in units of `2^e`. -/
theorem abs_sub_mul_zpow (x n : ℚ) (e : Int) : |x - n * 2 ^ e| = |x / 2 ^ e - n| * 2 ^ e := by
  have hpos : (0 : ℚ) < 2 ^ e := by positivity
  rw [← abs_of_pos hpos, ← abs_mul, abs_of_pos hpos, sub_mul, div_mul_cancel₀ _ hpos.ne']

/-- A value whose exponent is at least `e` is a whole number of units `2^e`. -/
theorem mul_zpow_of_le {e e' : Int} (he : e ≤ e') (m : Nat) :
    ((m * 2 ^ (e' - e).toNat : ℕ) : ℚ) * 2 ^ e = m * 2 ^ e' := by
  push_cast
  rw [mul_assoc, ← zpow_natCast, ← zpow_add₀ two_ne_zero, Int.toNat_of_nonneg (by omega), sub_add_cancel]

/-- Two different natural numbers cannot both lie within less than one half of a number. -/
theorem half_le_abs_sub {u : ℚ} {k n : Nat} (hk : |u - k| ≤ 1 / 2) (hne : n ≠ k) : 1 / 2 ≤ |u - n| := by
  have hdist : (1 : ℚ) ≤ |(n : ℚ) - k| := by
    exact_mod_cast Int.one_le_abs (sub_ne_zero.2 (Nat.cast_injective.ne hne : (n : ℤ) ≠ k))
  have htri := abs_sub_le (n : ℚ) u k
  rw [abs_sub_comm (n : ℚ) u] at htri
  linarith

namespace Rounding

variable {fmt : FloatFormat} {x : ℚ} {k : Nat} {e : Int}

/-- No whole number of units of the last place is closer, and where another is as close the result is even. -/
theorem nearest_multiple (h : Rounding fmt x k e) (n : Nat) :
    |x - k * 2 ^ e| ≤ |x - n * 2 ^ e| ∧ (|x - k * 2 ^ e| = |x - n * 2 ^ e| → n ≠ k → k % 2 = 0) := by
  have hpos : (0 : ℚ) < 2 ^ e := by positivity
  rw [abs_sub_mul_zpow, abs_sub_mul_zpow]
  refine ⟨mul_le_mul_of_nonneg_right ?_ hpos.le, fun heq hne => h.tie ?_⟩
  · rcases eq_or_ne n k with rfl | hne
    · exact le_rfl
    · exact h.near.trans (half_le_abs_sub h.near hne)
  · exact h.near.antisymm (mul_right_cancel₀ hpos.ne' heq ▸ half_le_abs_sub h.near hne)

/-- A value with a finer last place lies below `x` with full leading bit, and so is farther away. -/
theorem nearest_finer (h : Rounding fmt x k e) {m' : Nat} {e' : Int} (hm' : m' < 2 ^ fmt.prec)
    (he' : fmt.minExp ≤ e') (hlt : e' < e) : |x - k * 2 ^ e| < |x - m' * 2 ^ e'| := by
  have hlead := h.lead (he'.trans_lt hlt)
  have hbelow : (m' : ℚ) * 2 ^ e' < 2 ^ (fmt.prec - 1) * 2 ^ e :=
    calc (m' : ℚ) * 2 ^ e' < 2 ^ fmt.prec * 2 ^ e' :=
          mul_lt_mul_of_pos_right (by exact_mod_cast hm') (by positivity)
      _ = 2 ^ ((fmt.prec : Int) + e') := by rw [zpow_add₀ two_ne_zero, zpow_natCast]
      _ ≤ 2 ^ (((fmt.prec - 1 : ℕ) : Int) + e) := zpow_le_zpow_right₀ one_le_two (by omega)
      _ = 2 ^ (fmt.prec - 1) * 2 ^ e := by rw [zpow_add₀ two_ne_zero, zpow_natCast]
  calc |x - k * 2 ^ e| ≤ |x - (2 ^ (fmt.prec - 1) : ℕ) * 2 ^ e| := (h.nearest_multiple _).1
    _ = x - 2 ^ (fmt.prec - 1) * 2 ^ e := by push_cast; exact abs_of_nonneg (sub_nonneg.2 hlead)
    _ < x - m' * 2 ^ e' := sub_lt_sub_left hbelow x
    _ = |x - m' * 2 ^ e'| := (abs_of_nonneg (by linarith)).symm

/-- Nearest, ties to even, among all values of the format's precision. -/
theorem nearest (h : Rounding fmt x k e) {m' : Nat} {e' : Int} (hm' : m' < 2 ^ fmt.prec) (he' : fmt.minExp ≤ e') :
    |x - k * 2 ^ e| ≤ |x - m' * 2 ^ e'| ∧
      (|x - k * 2 ^ e| = |x - m' * 2 ^ e'| → (m' : ℚ) * 2 ^ e' ≠ k * 2 ^ e → k % 2 = 0) := by
  rcases lt_or_ge e' e with hlt | hge
  · have hfar := h.nearest_finer hm' he' hlt
    exact ⟨hfar.le, fun heq => absurd heq hfar.ne⟩
  · rw [← mul_zpow_of_le hge]
    obtain ⟨hle, htie⟩ := h.nearest_multiple (m' * 2 ^ (e' - e).toNat)
    exact ⟨hle, fun heq hne => htie heq fun hk => hne (by rw [hk])⟩

/-- The scaled ratio lies below `2^prec`. -/
theorem scaled_lt (h : Rounding fmt x k e) : x / 2 ^ e < 2 ^ fmt.prec :=
  (div_lt_iff₀ (by positivity)).2 h.lt

theorem le_two_pow (h : Rounding fmt x k e) : k ≤ 2 ^ fmt.prec := by
  have hnear := (abs_le.1 h.near).1
  have hlt : (k : ℚ) < (2 ^ fmt.prec + 1 : ℕ) := by
    push_cast; linarith [h.scaled_lt]
  exact Nat.lt_succ_iff.1 (by exact_mod_cast hlt)

/-- The significand needs one bit more exactly from half a unit below `2^prec` on. -/
theorem eq_two_pow_iff (h : Rounding fmt x k e) (hp : 1 ≤ fmt.prec) :
    k = 2 ^ fmt.prec ↔ (2 ^ fmt.prec - 1 / 2) * 2 ^ e ≤ x := by
  rw [← le_div_iff₀ (by positivity)]
  have hnear := abs_le.1 h.near
  constructor
  · rintro rfl
    have := hnear.1
    push_cast at this; linarith
  · intro hge
    by_contra hne
    have hk : k + 1 ≤ 2 ^ fmt.prec := lt_of_le_of_ne h.le_two_pow hne
    have hkq : (k : ℚ) + 1 ≤ 2 ^ fmt.prec := by exact_mod_cast hk
    have heven : k % 2 = 0 := h.tie (by rw [abs_of_nonneg (by linarith)]; linarith [hnear.2])
    have hodd : k + 1 = 2 ^ fmt.prec := by
      have : (2 : ℚ) ^ fmt.prec ≤ k + 1 := by linarith [hnear.2]
      exact hk.antisymm (by exact_mod_cast this)
    have := Nat.pow_dvd_pow 2 hp
    omega

/-- The threshold of overflow in terms of the rounded significand and its exponent. -/
theorem overflow_iff (h : Rounding fmt x k e) (hp : 1 ≤ fmt.prec) (hr : fmt.minExp ≤ fmt.maxExp) :
    (2 ^ fmt.prec - 1 / 2) * 2 ^ fmt.maxExp ≤ x ↔ fmt.maxExp < e ∨ (e = fmt.maxExp ∧ k = 2 ^ fmt.prec) := by
  have hmax : (0 : ℚ) < 2 ^ fmt.maxExp := by positivity
  rcases lt_trichotomy e fmt.maxExp with hlt | rfl | hgt
  · refine iff_of_false (fun hge => ?_) (by omega)
    have hstep : (2 : ℚ) ^ (e + 1) ≤ 2 ^ fmt.maxExp := zpow_le_zpow_right₀ one_le_two hlt
    rw [zpow_add_one₀ two_ne_zero] at hstep
    have hone : (1 : ℚ) ≤ 2 ^ fmt.prec := one_le_pow₀ one_le_two
    nlinarith [h.lt]
  · simp [h.eq_two_pow_iff hp]
  · refine iff_of_true ?_ (.inl hgt)
    calc ((2 : ℚ) ^ fmt.prec - 1 / 2) * 2 ^ fmt.maxExp ≤ 2 ^ fmt.prec * 2 ^ fmt.maxExp :=
          mul_le_mul_of_nonneg_right (by linarith) hmax.le
      _ = 2 ^ ((fmt.prec : Int) + fmt.maxExp) := by rw [zpow_add₀ two_ne_zero, zpow_natCast]
      _ ≤ 2 ^ (((fmt.prec - 1 : ℕ) : Int) + e) := zpow_le_zpow_right₀ one_le_two (by omega)
      _ = 2 ^ (fmt.prec - 1) * 2 ^ e := by rw [zpow_add₀ two_ne_zero, zpow_natCast]
      _ ≤ x := h.lead (hr.trans_lt hgt)

end Rounding

theorem normalise_overflow {fmt : FloatFormat} {k : Nat} {e : Int} (neg : Bool)
    (h : fmt.maxExp < e ∨ (e = fmt.maxExp ∧ k = 2 ^ fmt.prec)) : normalise fmt neg k e = .inf neg := by
  unfold normalise
  split
  · exact if_pos (by omega)
  · rename_i hk
    exact if_pos (h.resolve_right fun ⟨_, hk'⟩ => hk hk')

/-- Short of overflow, normalising keeps the value, and an even significand even, and makes the significand fit. -/
theorem normalise_fin {fmt : FloatFormat} (hp : 2 ≤ fmt.prec) {k : Nat} {e : Int} (neg : Bool)
    (hk : k ≤ 2 ^ fmt.prec) (h : ¬ (fmt.maxExp < e ∨ (e = fmt.maxExp ∧ k = 2 ^ fmt.prec))) :
    ∃ m e', normalise fmt neg k e = .fin neg m e' ∧ m < 2 ^ fmt.prec ∧ e ≤ e' ∧ e' ≤ fmt.maxExp ∧
      (m : ℚ) * 2 ^ e' = k * 2 ^ e ∧ (k % 2 = 0 → m % 2 = 0) := by
  obtain ⟨he, hek⟩ := not_or.1 h
  unfold normalise
  by_cases hfull : k = 2 ^ fmt.prec
  · have hdouble : 2 ^ fmt.prec = 2 ^ (fmt.prec - 1) * 2 := by rw [← pow_succ, Nat.sub_add_cancel (by omega)]
    have heven : 2 ∣ 2 ^ (fmt.prec - 1) := dvd_pow_self 2 (by omega)
    rw [if_pos hfull, if_neg (by omega)]
    refine ⟨_, _, rfl, Nat.pow_lt_pow_right one_lt_two (by omega), by omega, by omega, ?_, fun _ => by omega⟩
    rw [hfull, hdouble, zpow_add_one₀ two_ne_zero]
    push_cast; ring
  · rw [if_neg hfull, if_neg he]
    exact ⟨k, e, rfl, lt_of_le_of_ne hk hfull, le_rfl, by omega, rfl, id⟩

end Sys2Proof.Machine

open Sys2Proof.Machine in
/-- Settles O55: the significand is nearest before it is normalised (`Rounding.nearest`), and normalising keeps the
value short of the threshold of overflow (`Rounding.overflow_iff`). -/
theorem roundingIsToNearestEven : Obligations.RoundingIsToNearestEven := by
  intro fmt neg num den hp hr hd
  have hp1 : 1 ≤ fmt.prec := one_le_two.trans hp
  refine ⟨fun h0 => by rw [roundRatio, if_pos h0], fun hover => ?_, fun hn hlt => ?_⟩
  · have hn : 0 < num := by
      have hone : (1 : ℚ) ≤ 2 ^ fmt.prec := one_le_pow₀ one_le_two
      have hpos : (0 : ℚ) < num / den := lt_of_lt_of_le (mul_pos (by linarith) (by positivity)) hover
      exact Nat.pos_of_ne_zero fun h0 => by simp [h0] at hpos
    obtain ⟨k, e, hround, h⟩ := roundRatio_rounding hp1 neg hn hd
    rw [hround, normalise_overflow neg ((h.overflow_iff hp1 hr).1 hover)]
  · obtain ⟨k, e, hround, h⟩ := roundRatio_rounding hp1 neg hn hd
    obtain ⟨m, e', hm, hmlt, hee', hmax, hval, heven⟩ := normalise_fin hp neg h.le_two_pow
      (mt (h.overflow_iff hp1 hr).2 hlt.not_ge)
    refine ⟨m, e', hround.trans hm, hmlt, h.minExp_le.trans hee', hmax, fun m' f hm' hf => ?_⟩
    obtain ⟨hle, htie⟩ := h.nearest hm' hf
    rw [hval]
    exact ⟨hle, fun heq hne => heven (htie heq hne)⟩

end

section
/-! SUPPORT. What an instruction can do, a received command or a host operation; and what no instruction but the two
lifecycle operations writes, the configuration (R22 to R28), with the part of the state that R41 keeps from received
commands and the watchdog. -/

namespace Sys2Proof.Machine

/-! ### Every instruction -/

/-- What an instruction can do: `exec_bus` and `exec_host` as one inversion. -/
inductive ExecCase (i : Instr) (s : State) : State → Prop where
  | bus (last : Nat) (en : Bool) (target : B32) (os : List Output) (fs : List Frame)
    (ds : List (DropReason × Frame)) (n : Nat) : BusEffect i s last en target os fs ds n →
    ExecCase i s (busUpdate s last en target os fs ds n)
  | refused (r : RefuseReason) : ExecCase i s (s.markRefused r)
  | host (t : State) : HostEffect i s t → ExecCase i s t

theorem exec_cases {i : Instr} {s t : State} (h : exec i s = .next t) : ExecCase i s t := by
  cases hb : i.fromBus with
  | true =>
    obtain ⟨last, en, target, os, fs, ds, n, he, hx⟩ := exec_bus i hb s
    cases h.symm.trans hx
    exact .bus last en target os fs ds n he
  | false =>
    obtain ⟨r, hx⟩ | ⟨-, u, hx, he⟩ := exec_host i hb s
    · cases h.symm.trans hx
      exact .refused r
    · cases h.symm.trans hx
      exact .host _ he

/-! ### The mark of a refusal -/

/-- A second refusal leaves the first reason (R40, R224). -/
theorem markRefused_refused_of_some {s : State} {r : RefuseReason} (h : s.refused = some r) (q : RefuseReason) :
    (s.markRefused q).refused = some r := by
  rw [State.markRefused, h]

theorem startRun_refused (now : Nat) (s : State) : (startRun now s).refused = s.refused := by
  rw [startRun_eq]; split <;> rfl

/-- A host operation that the contract allows leaves the mark alone. -/
theorem HostEffect.refused_eq {i : Instr} {s t : State} (h : HostEffect i s t) : t.refused = s.refused := by
  cases h with
  | run => exact startRun_refused _ s
  | configure | openBus | setRemoteEnable | setVoltage | setError | runNothing => rfl

/-! ### The configuration -/

/-- What `CONFIGURE` and `OPEN` write (R120, R122). -/
structure Configuration where
  lc : Lifecycle
  tpBound : Bool
  motorBound : Bool
  nodeAddr : Byte
  bitrate : Word
  filtId : Ident
  filtMask : Ident
  filtExt : Bool
  loopback : Bool
  busStarted : Bool

/-- The configuration of a state. -/
def State.configuration (s : State) : Configuration :=
  ⟨s.lc, s.tpBound, s.motorBound, s.nodeAddr, s.bitrate, s.filtId, s.filtMask, s.filtExt, s.loopback, s.busStarted⟩

theorem configuration_eq_iff {s t : State} :
    t.configuration = s.configuration ↔
      t.lc = s.lc ∧ t.tpBound = s.tpBound ∧ t.motorBound = s.motorBound ∧ t.nodeAddr = s.nodeAddr ∧
      t.bitrate = s.bitrate ∧ t.filtId = s.filtId ∧ t.filtMask = s.filtMask ∧ t.filtExt = s.filtExt ∧
      t.loopback = s.loopback ∧ t.busStarted = s.busStarted := by
  simp only [State.configuration, Configuration.mk.injEq]

theorem startRun_configuration (now : Nat) (s : State) : (startRun now s).configuration = s.configuration := by
  rw [startRun_eq]; split <;> rfl

theorem receive_configuration (f : Frame) (s : State) : (receive f s).configuration = s.configuration := by
  unfold receive; split <;> rfl

/-- The two moves of the lifecycle (R22), each by its own operation; `OPEN` leaves the identity and the bindings. -/
inductive LifecycleMove (i : Instr) (s t : State) : Prop where
  | configure (tp m : Bool) (a : Byte) (b : Word) : i = .configure tp m a b → s.lc = .unconfigured →
    t.lc = .configured → LifecycleMove i s t
  | openBus : i = .openBus → s.lc = .configured → t.lc = .opened →
    (t.nodeAddr = s.nodeAddr ∧ t.bitrate = s.bitrate ∧ t.tpBound = s.tpBound ∧ t.motorBound = s.motorBound) →
    LifecycleMove i s t

theorem HostEffect.configuration_eq_or {i : Instr} {s t : State} (h : HostEffect i s t) :
    t.configuration = s.configuration ∨ LifecycleMove i s t := by
  cases h with
  | configure _ tp m a b hlc => exact .inr (.configure tp m a b rfl hlc rfl)
  | openBus _ hlc => exact .inr (.openBus rfl hlc rfl ⟨rfl, rfl, rfl, rfl⟩)
  | run _ now => exact .inl (startRun_configuration now s)
  | setRemoteEnable | setVoltage | setError | runNothing => exact .inl rfl

theorem exec_configuration {i : Instr} {s t : State} (h : exec i s = .next t) :
    t.configuration = s.configuration ∨ LifecycleMove i s t := by
  cases exec_cases h with
  | bus => exact .inl rfl
  | refused => exact .inl rfl
  | host _ he => exact he.configuration_eq_or

theorem processFrame_configuration {f : Frame} {s t : State} (h : processFrame f s = .next t) :
    t.configuration = s.configuration := by
  obtain ⟨-, hx⟩ | ⟨-, i, last, en, target, os, fs, ds, n, -, hx⟩ := processFrame_effect f s
  · cases h.symm.trans hx; rfl
  · cases h.symm.trans hx; rfl

theorem BlockCase.configuration_eq {s t : State} (h : BlockCase s t) : t.configuration = s.configuration := by
  cases h with
  | idle => rfl
  | watchdog => exact startRun_configuration s.now s
  | ends => rfl
  | frame _ _ _ _ _ hx => exact (processFrame_configuration hx).trans rfl

/-- What the outside world will do is no part of a move. -/
theorem LifecycleMove.of_setInputs {i : Instr} {s t : State} {es : List Event}
    (h : LifecycleMove i { s with inputs := es } t) : LifecycleMove i s t := by
  cases h with
  | configure tp m a b hi hs ht => exact .configure tp m a b hi hs ht
  | openBus hi hs ht hid => exact .openBus hi hs ht hid

/-- Only a move of the lifecycle changes the configuration. -/
theorem StepCase.configuration_eq_or {s t : State} (h : StepCase s t) :
    t.configuration = s.configuration ∨ ∃ i, LifecycleMove i s t := by
  cases h with
  | block _ hb => exact .inl hb.configuration_eq
  | tick _ _ _ hb => exact .inl hb.configuration_eq
  | returned => exact .inl rfl
  | motor => exact .inl rfl
  | rx => exact .inl (receive_configuration _ _)
  | rxRemote => exact .inl (receive_configuration _ _)
  | peerTurn _ _ _ _ _ hb => exact .inl hb.configuration_eq
  | peerFrame => exact .inl (receive_configuration _ _)
  | badHost => exact .inl rfl
  | host _ _ i _ _ _ hx => exact (exec_configuration hx).imp id fun hmove => ⟨i, hmove.of_setInputs⟩

/-! ### What received commands and the watchdog leave -/

/-- What no received command and no watchdog may write (R41): the configuration, the gate, the telemetry and the
motor's inputs. -/
structure Settings where
  configuration : Configuration
  remoteEn : Bool
  voltage : B32
  error : Int
  currentLimit : B32
  shaftAngle : B32

/-- The settings of a state. -/
def State.settings (s : State) : Settings :=
  ⟨s.configuration, s.remoteEn, s.voltage, s.error, s.motor.currentLimit, s.motor.shaftAngle⟩

theorem settings_eq_iff {s t : State} :
    t.settings = s.settings ↔
      t.configuration = s.configuration ∧ t.remoteEn = s.remoteEn ∧ t.voltage = s.voltage ∧ t.error = s.error ∧
      t.motor.currentLimit = s.motor.currentLimit ∧ t.motor.shaftAngle = s.motor.shaftAngle := by
  simp only [State.settings, Settings.mk.injEq]

/-- What R41 allows the change from `s` to `t` by a received command or a `RUN` to be. -/
structure Confined (i : Instr) (s t : State) : Prop where
  settings : t.settings = s.settings
  last_only : t.lastComm ≠ s.lastComm → asksValues i = true
  target_only : t.motor.target ≠ s.motor.target → ∃ hdr p, i = .setCurrentRel hdr p
  enabled_only : t.motor.enabled ≠ s.motor.enabled → asksValues i = true ∨ ∃ now, i = .run now

/-- A change that leaves the motor and `LAST_COMM` alone too. -/
theorem Confined.of_eq {i : Instr} {s t : State} (hs : t.settings = s.settings) (hl : t.lastComm = s.lastComm)
    (hm : t.motor = s.motor) : Confined i s t :=
  ⟨hs, absurd hl, absurd (congrArg Motor.target hm), absurd (congrArg Motor.enabled hm)⟩

theorem Confined.busUpdate {i : Instr} {s : State} {last : Nat} {en : Bool} {target : B32} {os : List Output}
    {fs : List Frame} {ds : List (DropReason × Frame)} {n : Nat} (h : BusEffect i s last en target os fs ds n) :
    Confined i s (busUpdate s last en target os fs ds n) :=
  ⟨rfl, h.last_only, fun hne => (h.target_only hne).1, fun hne => .inl (h.enabled_only hne).1⟩

/-- The watchdog of a `RUN` can write `enabled`, and nothing else of these (R233). -/
theorem Confined.startRun (now : Nat) (s : State) : Confined (.run now) s (startRun now s) := by
  rw [startRun_eq]
  split
  · exact ⟨rfl, absurd rfl, absurd rfl, fun _ => .inr ⟨now, rfl⟩⟩
  · exact .of_eq rfl rfl rfl

theorem Confined.of_hostEffect {i : Instr} {s t : State} (h : HostEffect i s t)
    (hi : i.fromBus = true ∨ ∃ now, i = .run now) : Confined i s t := by
  cases h with
  | run _ now => exact .startRun now s
  | runNothing => exact .of_eq rfl rfl rfl
  | configure | openBus | setRemoteEnable | setVoltage | setError => simp [Instr.fromBus] at hi

theorem Confined.of_exec {i : Instr} {s t : State} (h : exec i s = .next t)
    (hi : i.fromBus = true ∨ ∃ now, i = .run now) : Confined i s t := by
  cases exec_cases h with
  | bus _ _ _ _ _ _ _ he => exact .busUpdate he
  | refused => exact .of_eq rfl rfl rfl
  | host _ he => exact .of_hostEffect he hi

end Sys2Proof.Machine

open Sys2Proof.Machine

/-- Settles O23: whatever an instruction does, it keeps the mark or does not see it, and `step` reads the mark first. -/
theorem refusalMarkStays : Obligations.RefusalMarkStays := by
  refine ⟨fun i s t r hr hx => ?_, fun s r hr => step_marked hr⟩
  cases exec_cases hx with
  | bus => exact hr
  | refused q => exact markRefused_refused_of_some hr q
  | host _ he => exact he.refused_eq.trans hr

/-- Settles O29: an instruction that changes the configuration is one of the two moves. -/
theorem lifecycleOnlyMovesForward : Obligations.LifecycleOnlyMovesForward := by
  refine ⟨rfl, rfl, rfl, fun i s t hx hne => ?_⟩
  obtain hc | hmove := exec_configuration hx
  · exact absurd (configuration_eq_iff.1 hc).1 hne
  · cases hmove with
    | configure tp m a b hi hs ht => exact .inl ⟨hs, ht, tp, m, a, b, hi⟩
    | openBus hi hs ht => exact .inr ⟨hs, ht, hi⟩

/-- Settles O30: `CONFIGURE` moves only an unconfigured node, `OPEN` only a configured one and not its identity. -/
theorem configurationIsImmutable : Obligations.ConfigurationIsImmutable := by
  intro s t h
  obtain hc | ⟨i, hmove⟩ := (step_cases h).2.configuration_eq_or
  · obtain ⟨hlc, htp, hm, ha, hb, hfi, hfm, hfe, hl, hbs⟩ := configuration_eq_iff.1 hc
    exact ⟨fun _ => ⟨ha, hb, htp, hm⟩, fun ho => ⟨hfi, hfm, hfe, hl, hbs, hlc.trans ho⟩⟩
  · cases hmove with
    | configure _ _ _ _ _ hs => exact ⟨absurd hs, fun ho => by cases hs.symm.trans ho⟩
    | openBus _ hs _ hid => exact ⟨fun _ => hid, fun ho => by cases hs.symm.trans ho⟩

/-- Settles O52: the settings stay as one value (`Confined`), and the rest is what a received command's effect says. -/
theorem writersAreConfined : Obligations.WritersAreConfined := by
  intro i s t hx hi
  obtain ⟨hset, hlast, htarget, henabled⟩ := Confined.of_exec hx hi
  obtain ⟨hconf, hre, hv, he, hcl, hsa⟩ := settings_eq_iff.1 hset
  obtain ⟨hlc, htp, hm, ha, hb, hfi, hfm, hfe, hl, hbs⟩ := configuration_eq_iff.1 hconf
  exact ⟨hlc, htp, hm, ha, hb, hfi, hfm, hfe, hl, hbs, hre, hv, he, hcl, hsa, hlast, htarget, henabled⟩

end

section
/-! SUPPORT. The invariant, operation by operation, up to `step`. -/

namespace Sys2Proof.Machine

/-- Under the invariant no frame is looped back: an unstarted bus does not, and an opened node has loopback off. -/
theorem echoed_of_inv {s : State} (h : s.Inv) (fs : List Frame) : echoed s fs = [] := by
  obtain ⟨-, -, hbus, hopen, -⟩ := h
  unfold echoed
  split
  · rename_i hecho
    obtain ⟨hl, hb⟩ := Bool.and_eq_true_iff.1 hecho
    have hoff := (hopen (hbus.1 hb)).2.1
    exact absurd hl (by simp [hoff])
  · rfl

theorem inv_markRefused {s : State} (h : s.Inv) (r : RefuseReason) : (s.markRefused r).Inv := h

/-- A received command writes `LAST_COMM` within its width and, without loopback, adds nothing to the queue. -/
theorem inv_busUpdate {i : Instr} {s : State} {last : Nat} {en : Bool} {target : B32} {os : List Output}
    {fs : List Frame} {ds : List (DropReason × Frame)} {n : Nat} (h : s.Inv)
    (he : BusEffect i s last en target os fs ds n) : (busUpdate s last en target os fs ds n).Inv := by
  have hecho := echoed_of_inv h fs
  obtain ⟨hwd, hrun, hbus, hopen, hqueue, hunbound, ⟨hnow, hlast⟩, herr⟩ := h
  have hfits : last < 2 ^ s.params.clkW := by
    by_cases hl : last = s.lastComm
    · exact hl ▸ hlast
    · exact he.last_fits hnow hl
  have hq : s.lc ≠ .opened → s.rxQueue ++ echoed s fs = [] := fun hlc => by rw [hqueue hlc, hecho, List.append_nil]
  exact ⟨hwd, hrun, hbus, hopen, hq, hunbound, ⟨hnow, hfits⟩, herr⟩

/-- A `RUN` begins only on an opened node with both collaborators bound (R140). -/
theorem inv_startRun {s : State} (h : s.Inv) (now : Nat) (hlc : s.lc = .opened) (htp : s.tpBound = true)
    (hm : s.motorBound = true) : (startRun now s).Inv := by
  obtain ⟨-, -, hbus, hopen, hqueue, hunbound, ⟨-, hlast⟩, herr⟩ := h
  have hdrain : State.Inv { s with phase := .drain, now := clockValue s.params now } :=
    ⟨by simp, fun _ => ⟨hlc, htp, hm⟩, hbus, hopen, hqueue, hunbound, ⟨clockValue_lt _ _, hlast⟩, herr⟩
  rw [startRun_eq]
  split <;> exact hdrain

/-- A frame is queued only on a started bus, hence on an opened node (R28). -/
theorem inv_receive {s : State} (h : s.Inv) (f : Frame) : (receive f s).Inv := by
  unfold receive
  split
  · rename_i hb
    obtain ⟨hwd, hrun, hbus, hopen, -, hunbound, hclock, herr⟩ := h
    exact ⟨hwd, hrun, hbus, hopen, fun hlc => absurd (hbus.1 hb) hlc, hunbound, hclock, herr⟩
  · exact h

theorem inv_receiveRemote {s : State} (h : s.Inv) (ext : Bool) (id : Ident) (len : Nat) :
    (receiveRemote ext id len s).Inv :=
  have hdrew : (s.drew len).Inv := h
  inv_receive hdrew _

theorem inv_of_hostEffect {i : Instr} {s t : State} (h : s.Inv) (he : HostEffect i s t) : t.Inv := by
  cases he with
  | run _ now htp hm hlc => exact inv_startRun h now hlc htp hm
  | setRemoteEnable | setVoltage | runNothing => exact h
  | setError _ e =>
    obtain ⟨hwd, hrun, hbus, hopen, hqueue, hunbound, hclock, -⟩ := h
    exact ⟨hwd, hrun, hbus, hopen, hqueue, hunbound, hclock, errorValue_fits s.params e⟩
  | configure _ _ _ _ _ hlc =>
    obtain ⟨hwd, hrun, hbus, -, hqueue, -, hclock, herr⟩ := h
    have hclosed : s.lc ≠ .opened := by simp [hlc]
    exact ⟨hwd, fun hp => absurd (hrun hp).1 hclosed, ⟨fun hb => absurd (hbus.1 hb) hclosed, nofun⟩, nofun,
      fun _ => hqueue hclosed, nofun, hclock, herr⟩
  | openBus _ hlc htp =>
    obtain ⟨hwd, hrun, -, -, -, -, hclock, herr⟩ := h
    have hclosed : s.lc ≠ .opened := by simp [hlc]
    exact ⟨hwd, fun hp => absurd (hrun hp).1 hclosed, ⟨fun _ => rfl, fun _ => rfl⟩,
      fun _ => ⟨htp, rfl, rfl, rfl, rfl⟩, absurd rfl, nofun, hclock, herr⟩

theorem inv_of_exec {i : Instr} {s t : State} (h : s.Inv) (hx : exec i s = .next t) : t.Inv := by
  cases exec_cases hx with
  | bus _ _ _ _ _ _ _ he => exact inv_busUpdate h he
  | refused r => exact inv_markRefused h r
  | host _ he => exact inv_of_hostEffect h he

/-- `RXF` is no part of the invariant. -/
theorem inv_of_processFrame {f : Frame} {s t : State} (h : s.Inv) (hx : processFrame f s = .next t) : t.Inv := by
  have hload : State.Inv { s with rxf := f } := h
  obtain ⟨-, hr⟩ | ⟨-, i, last, en, target, os, fs, ds, n, he, hb⟩ := processFrame_effect f s
  · cases hx.symm.trans hr
    exact inv_markRefused hload _
  · cases hx.symm.trans hb
    exact inv_busUpdate hload he

theorem inv_of_blockCase {s t : State} (h : s.Inv) (hb : BlockCase s t) : t.Inv := by
  have ⟨hwd, hrun, hbus, hopen, hqueue, hunbound, hclock, herr⟩ := h
  cases hb with
  | idle => exact h
  | watchdog hp => exact absurd hp hwd
  | ends => exact ⟨nofun, absurd rfl, hbus, hopen, hqueue, hunbound, hclock, herr⟩
  | frame f q _ hp _ hx =>
    have hlc : s.lc = .opened := (hrun (by simp [hp])).1
    have hread : State.Inv { s with rxQueue := q } :=
      ⟨hwd, hrun, hbus, hopen, absurd hlc, hunbound, hclock, herr⟩
    exact inv_of_processFrame hread hx

/-- What the outside world will do is no part of the invariant. -/
theorem inv_setInputs {s : State} (h : s.Inv) (es : List Event) : State.Inv { s with inputs := es } := h

theorem inv_of_stepCase {s t : State} (h : s.Inv) (hc : StepCase s t) : t.Inv := by
  cases hc with
  | block _ hb => exact inv_of_blockCase h hb
  | tick rest _ _ hb => exact inv_of_blockCase (inv_setInputs h rest) hb
  | returned rest => exact inv_setInputs h rest
  | motor => exact h
  | rx f rest => exact inv_receive (inv_setInputs h rest) f
  | rxRemote ext id len rest => exact inv_receiveRemote (inv_setInputs h rest) ext id len
  | peerTurn p rest _ _ _ hb => exact inv_of_blockCase (inv_setInputs h _) hb
  | peerFrame p rest f => exact inv_receive (inv_setInputs h _) f
  | badHost w rest => exact inv_markRefused (inv_setInputs h rest) _
  | host w rest i _ _ _ hx => exact inv_of_exec (inv_setInputs h rest) hx

end Sys2Proof.Machine

open Sys2Proof.Machine in
/-- Settles O21: every case of a step is made of operations that keep the invariant. -/
theorem everyStepKeepsInvariant : Obligations.EveryStepKeepsInvariant :=
  fun _ _ h hx => inv_of_stepCase h (step_cases hx).2

end

section
/-! SUPPORT. Where an arriving frame goes (R28, R66, R85). -/

namespace Sys2Proof.Machine

theorem mayArrive_iff (s : State) :
    mayArrive s = true ↔ s.phase = .idle ∨ s.params.rxArrivals = .allowed := by
  simp only [mayArrive, Bool.or_eq_true, beq_iff_eq]

/-- During a `RUN` under `NONE` no frame may arrive. -/
theorem mayArrive_eq_false {s : State} (hp : s.phase ≠ .idle) (hn : s.params.rxArrivals = .none) :
    mayArrive s = false := by
  simp [mayArrive, hp, hn]

theorem receive_started {s : State} (h : s.busStarted = true) (f : Frame) :
    receive f s = { s with rxQueue := s.rxQueue ++ [f] } := if_pos h

theorem receive_unstarted {s : State} (h : s.busStarted = false) (f : Frame) : receive f s = s :=
  if_neg (by simp [h])

theorem length_remoteBytes (first len : Nat) : (remoteBytes first len).length = len := by
  rw [remoteBytes, List.length_map, List.length_range]

/-- A frame arrives, listed by itself or the next of an unending peer; `left` is what the outside world then lists. -/
inductive Arrival (f : Frame) (rest : List Event) : Event → List Event → Prop where
  | rx : Arrival f rest (.rx f) rest
  | peer (p : Peer) : p.next.1 = some f → Arrival f rest (.unending p) (.unending p.next.2 :: rest)

theorem nextStep_arrival {s : State} {f : Frame} {e : Event} {rest left : List Event} (hi : s.inputs = e :: rest)
    (ha : Arrival f rest e left) (hm : mayArrive s = true) :
    nextStep s = .next (receive f { s with inputs := left }) := by
  cases ha with
  | rx => simp only [nextStep, hi, hm, if_true]
  | peer p hn => simp only [nextStep, hi, peerStep_frame rest hm hn]

theorem nextStep_arrival_waits {s : State} {f : Frame} {e : Event} {rest left : List Event}
    (hi : s.inputs = e :: rest) (ha : Arrival f rest e left) (hm : mayArrive s = false) :
    nextStep s = blockStep s := by
  cases ha with
  | rx => simp only [nextStep, hi, hm, Bool.false_eq_true, if_false]
  | peer p => simp only [nextStep, hi, peerStep_waits p rest hm]

theorem nextStep_rxRemote {s : State} {ext : Bool} {id : Ident} {len : Nat} {rest : List Event}
    (hi : s.inputs = .rxRemote ext id len :: rest) (hm : mayArrive s = true) :
    nextStep s = .next (receiveRemote ext id len { s with inputs := rest }) := by
  simp only [nextStep, hi, hm, if_true]

theorem nextStep_rxRemote_waits {s : State} {ext : Bool} {id : Ident} {len : Nat} {rest : List Event}
    (hi : s.inputs = .rxRemote ext id len :: rest) (hm : mayArrive s = false) : nextStep s = blockStep s := by
  simp only [nextStep, hi, hm, Bool.false_eq_true, if_false]

end Sys2Proof.Machine

open Sys2Proof.Machine

/-- Settles O15: both kinds of arrival take the same step, and the state of the bus decides what `receive` does. -/
theorem arrivingFramesJoinTheQueue : Obligations.ArrivingFramesJoinTheQueue := by
  intro s f e rest left hs hi he
  have ha : Arrival f rest e left := by
    obtain ⟨rfl, rfl⟩ | ⟨p, rfl, hn, rfl⟩ := he
    · exact .rx
    · exact .peer p hn
  rw [step_sound hs]
  refine ⟨fun hm => ?_, fun hp hn => nextStep_arrival_waits hi ha (mayArrive_eq_false hp hn)⟩
  rw [nextStep_arrival hi ha ((mayArrive_iff s).2 hm)]
  exact ⟨fun hb => congrArg _ (receive_started (s := { s with inputs := left }) hb f),
    fun hb => congrArg _ (receive_unstarted (s := { s with inputs := left }) hb f)⟩

/-- Settles O16: the bytes are the draws from the counter on, as many as the frame's length. -/
theorem remoteFrameIsReceivedAsData : Obligations.RemoteFrameIsReceivedAsData := by
  intro s ext id len rest hs hi
  rw [step_sound hs]
  refine ⟨fun hm => ?_, fun hp hn => nextStep_rxRemote_waits hi (mayArrive_eq_false hp hn)⟩
  rw [nextStep_rxRemote hi ((mayArrive_iff s).2 hm)]
  have started := receive_started (s := State.drew len { s with inputs := rest })
  have unstarted := receive_unstarted (s := State.drew len { s with inputs := rest })
  exact ⟨fun hb => ⟨remoteBytes s.draws len, length_remoteBytes _ _, congrArg _ (started hb _)⟩,
    fun hb => congrArg _ (unstarted hb _)⟩

end

section
/-! SUPPORT. What a step does to the sequencing of a `RUN` and to the receive queue (R66, R71, R140, R141, R281): the
operations one by one, the drain of a queue while nothing arrives, and the peer whose frames never stop. -/

namespace Sys2Proof.Machine

/-! ### The phase and the queue, operation by operation -/

@[simp] theorem startRun_phase (now : Nat) (s : State) : (startRun now s).phase = .drain := rfl

@[simp] theorem startRun_rxQueue (now : Nat) (s : State) : (startRun now s).rxQueue = s.rxQueue := by
  rw [startRun_eq]; split <;> rfl

@[simp] theorem startRun_inputs (now : Nat) (s : State) : (startRun now s).inputs = s.inputs := by
  rw [startRun_eq]; split <;> rfl

@[simp] theorem receive_phase (f : Frame) (s : State) : (receive f s).phase = s.phase := by
  unfold receive; split <;> rfl

theorem HostEffect.phase_eq_or {i : Instr} {s t : State} (h : HostEffect i s t) :
    t.phase = s.phase ∨ t.phase = .drain := by
  cases h with
  | run => exact .inr rfl
  | configure | openBus | setRemoteEnable | setVoltage | setError | runNothing => exact .inl rfl

theorem HostEffect.rxQueue_eq {i : Instr} {s t : State} (h : HostEffect i s t) : t.rxQueue = s.rxQueue := by
  cases h with
  | run _ now => exact startRun_rxQueue now s
  | configure | openBus | setRemoteEnable | setVoltage | setError | runNothing => rfl

theorem busUpdate_rxQueue {s : State} (hl : s.loopback = false) (last : Nat) (en : Bool) (target : B32)
    (os : List Output) (fs : List Frame) (ds : List (DropReason × Frame)) (n : Nat) :
    (busUpdate s last en target os fs ds n).rxQueue = s.rxQueue := by
  simp only [busUpdate, echoed_noLoopback hl, List.append_nil]

/-- No instruction ends a `RUN` (R141, R275). -/
theorem exec_phase_eq_or {i : Instr} {s t : State} (h : exec i s = .next t) :
    t.phase = s.phase ∨ t.phase = .drain := by
  cases exec_cases h with
  | bus => exact .inl rfl
  | refused => exact .inl rfl
  | host _ he => exact he.phase_eq_or

/-- Without loopback no instruction touches the receive queue (R27). -/
theorem exec_rxQueue {i : Instr} {s t : State} (h : exec i s = .next t) (hl : s.loopback = false) :
    t.rxQueue = s.rxQueue := by
  cases exec_cases h with
  | bus => exact busUpdate_rxQueue hl ..
  | refused => rfl
  | host _ he => exact he.rxQueue_eq

theorem processFrame_phase {f : Frame} {s t : State} (h : processFrame f s = .next t) : t.phase = s.phase := by
  obtain ⟨-, hx⟩ | ⟨-, i, last, en, target, os, fs, ds, n, -, hx⟩ := processFrame_effect f s
  · cases h.symm.trans hx; rfl
  · cases h.symm.trans hx; rfl

theorem processFrame_rxQueue {f : Frame} {s t : State} (h : processFrame f s = .next t) (hl : s.loopback = false) :
    t.rxQueue = s.rxQueue := by
  have hload : State.loopback { s with rxf := f } = false := hl
  obtain ⟨-, hx⟩ | ⟨-, i, last, en, target, os, fs, ds, n, -, hx⟩ := processFrame_effect f s
  · cases h.symm.trans hx; rfl
  · cases h.symm.trans hx; exact busUpdate_rxQueue hload ..

/-! ### The end of a `RUN` and the frames a step removes -/

/-- The `RUN` ends between `s` and `t`: the poll found the queue empty (R141). -/
structure RunEnds (s t : State) : Prop where
  idle : t.phase = .idle
  before : s.rxQueue = []
  after : t.rxQueue = []

theorem BlockCase.drain_or_ends {s t : State} (h : BlockCase s t) (hp : s.phase = .drain) :
    t.phase = .drain ∨ RunEnds s t := by
  cases h with
  | idle => exact .inl hp
  | watchdog => exact .inl rfl
  | ends _ hq => exact .inr ⟨rfl, hq, hq⟩
  | frame _ _ _ _ _ hx => exact .inl ((processFrame_phase hx).trans hp)

theorem RunEnds.of_setInputs {s t : State} {es : List Event} (h : RunEnds { s with inputs := es } t) : RunEnds s t :=
  ⟨h.idle, h.before, h.after⟩

/-- A step of a `RUN` in progress stays in the drain, or it is the poll of an empty queue. -/
theorem StepCase.drain_or_ends {s t : State} (h : StepCase s t) (hp : s.phase = .drain) :
    t.phase = .drain ∨ RunEnds s t := by
  cases h with
  | block _ hb => exact hb.drain_or_ends hp
  | tick _ _ _ hb => exact (hb.drain_or_ends hp).imp_right .of_setInputs
  | peerTurn _ _ _ _ _ hb => exact (hb.drain_or_ends hp).imp_right .of_setInputs
  | returned => exact .inl hp
  | motor => exact .inl hp
  | badHost => exact .inl hp
  | rx => exact .inl ((receive_phase _ _).trans hp)
  | rxRemote => exact .inl ((receive_phase _ _).trans hp)
  | peerFrame => exact .inl ((receive_phase _ _).trans hp)
  | host _ _ _ _ _ _ hx =>
    obtain hsame | hdrain := exec_phase_eq_or hx
    · exact .inl (hsame.trans hp)
    · exact .inl hdrain

/-- The block's own step only removes frames from the queue, at most its head. -/
theorem BlockCase.rxQueue_suffix {s t : State} (h : BlockCase s t) (hl : s.loopback = false) :
    t.rxQueue <:+ s.rxQueue := by
  cases h with
  | idle => exact List.suffix_rfl
  | watchdog => rw [startRun_rxQueue]
  | ends => exact List.suffix_rfl
  | frame f q _ _ hq hx =>
    have hrest : t.rxQueue = q := processFrame_rxQueue hx hl
    rw [hrest, hq]
    exact List.suffix_cons f q

/-! ### Runs -/

/-- A host operation that decodes is run by the step that issues it (R111; log entry 10). -/
theorem step_host {s : State} {w : HostWord} {rest : List Event} {i : Instr} (hs : s.sound)
    (hi : s.inputs = .host w :: rest) (hd : decodeHost w = .instr i) :
    step s = exec i { s with inputs := rest } := by
  rw [step_sound hs]
  simp only [nextStep, hi, hostStep, hd]

/-- A peer that sends nothing now leaves the block its turn. -/
theorem nextStep_peerTurn {s : State} {p : Peer} {rest : List Event} (hi : s.inputs = .unending p :: rest)
    (hm : mayArrive s = true) (hn : p.next.1 = none) :
    nextStep s = blockStep { s with inputs := .unending p.next.2 :: rest } := by
  simp only [nextStep, hi, peerStep_turn rest hm hn]

/-- A run never leaves what every step keeps. -/
theorem core_run_keeps {P : State → Prop} (hstep : ∀ s, P s → ∃ t, step s = .next t ∧ P t) (n : Nat) :
    ∀ s, P s → ∃ t, core.run n s = .next t ∧ P t := by
  induction n with
  | zero => exact fun s h => ⟨s, rfl, h⟩
  | succ n ih =>
    intro s h
    obtain ⟨u, hu, hPu⟩ := hstep s h
    obtain ⟨t, ht, hPt⟩ := ih u hPu
    exact ⟨t, (core_run_next n hu).trans ht, hPt⟩

/-- Between `RUN`s, with nothing listed, a run changes nothing (R245). -/
theorem core_run_idle {s : State} (hs : s.sound) (hp : s.phase = .idle) (hi : s.inputs = []) (n : Nat) :
    core.run n s = .next s := by
  have hstep : step s = .next s := by
    rw [step_sound hs]
    simp only [nextStep, hi, blockStep, hp]
  induction n with
  | zero => rfl
  | succ n ih => exact (core_run_next n hstep).trans ih

/-! ### A `RUN` in progress -/

/-- A `RUN` is in progress, and every frame queued is within the transport's contract (R83). -/
structure Draining (s : State) : Prop where
  inv : s.Inv
  sound : s.sound
  phase : s.phase = .drain
  short : ∀ f ∈ s.rxQueue, f.len ≤ 8

namespace Draining

variable {s : State}

theorem not_idle (h : Draining s) : s.phase ≠ .idle := by simp [h.phase]

theorem opened (h : Draining s) : s.lc = .opened := by
  obtain ⟨-, hrun, -⟩ := h.inv
  exact (hrun h.not_idle).1

theorem busStarted (h : Draining s) : s.busStarted = true := by
  obtain ⟨-, -, hbus, -⟩ := h.inv
  exact hbus.2 h.opened

theorem loopback (h : Draining s) : s.loopback = false := by
  obtain ⟨-, -, -, hopen, -⟩ := h.inv
  exact (hopen h.opened).2.1

theorem setInputs (h : Draining s) (es : List Event) : Draining { s with inputs := es } :=
  ⟨inv_setInputs h.inv es, h.sound, h.phase, h.short⟩

/-- An arriving frame joins the queue. -/
theorem queued (h : Draining s) {f : Frame} (hf : f.len ≤ 8) : Draining { s with rxQueue := s.rxQueue ++ [f] } where
  inv := receive_started h.busStarted f ▸ inv_receive h.inv f
  sound := h.sound
  phase := h.phase
  short g hg := by
    obtain hg | hg := List.mem_append.1 hg
    · exact h.short g hg
    · exact List.mem_singleton.1 hg ▸ hf

/-- The head frame is processed and the `RUN` goes on with the rest of the queue. -/
theorem processFrame_next (h : Draining s) {f : Frame} {q : List Frame} (hq : s.rxQueue = f :: q) :
    ∃ t, processFrame f { s with rxQueue := q } = .next t ∧ Draining t ∧ t.rxQueue = q ∧ t.inputs = s.inputs ∧
      t.params = s.params := by
  obtain ⟨t, ht, -⟩ := processFrame_cases f { s with rxQueue := q }
  have hshort := h.short
  rw [hq, List.forall_mem_cons] at hshort
  obtain ⟨href, hphase, hrest, hin, hparams, -⟩ :=
    processFrame_keeps (s := { s with rxQueue := q }) hshort.1 h.loopback ht
  have hinv : t.Inv := inv_of_blockCase h.inv (.frame f q t h.phase hq ht)
  have hleft : ∀ g ∈ t.rxQueue, g.len ≤ 8 := hrest ▸ hshort.2
  exact ⟨t, ht, ⟨hinv, href.trans h.sound, hphase.trans h.phase, hleft⟩, hrest, hin, hparams⟩

theorem step_waiting (h : Draining s) (hw : s.outsideWaits = true) : step s = blockStep s :=
  (step_sound h.sound).trans (nextStep_waiting hw h.not_idle)

end Draining

theorem blockStep_empty {s : State} (hp : s.phase = .drain) (hq : s.rxQueue = []) :
    blockStep s = .next { s with phase := .idle } := by
  simp only [blockStep, hp, drainStep, hq]

theorem drainAll_cons {s t : State} {f : Frame} (q : List Frame)
    (h : processFrame f { s with rxQueue := q } = .next t) : drainAll (f :: q) s = drainAll q t := by
  simp only [drainAll, h]

/-- Whether the outside world waits depends on what it lists and on the parameters. -/
theorem outsideWaits_congr {s t : State} (hi : t.inputs = s.inputs) (hp : t.params = s.params) :
    t.outsideWaits = s.outsideWaits := by
  unfold State.outsideWaits
  rw [hi, hp]

/-- The drain loop ends, with the queue empty (R141). -/
theorem drainAll_ends {s : State} (h : Draining s) :
    ∃ t, drainAll s.rxQueue s = .next t ∧ t.phase = .idle ∧ t.rxQueue = [] ∧ t.inputs = s.inputs := by
  generalize hq : s.rxQueue = q
  induction q generalizing s with
  | nil => exact ⟨_, rfl, rfl, hq, rfl⟩
  | cons f q ih =>
    obtain ⟨u, hu, hdrain, huq, hui, -⟩ := h.processFrame_next hq
    obtain ⟨t, ht, hphase, hempty, hti⟩ := ih hdrain huq
    exact ⟨t, (drainAll_cons q hu).trans ht, hphase, hempty, hti.trans hui⟩

/-- While the outside world waits, one step for each queued frame and one more are the drain loop (log entry 10). -/
theorem core_run_drain {s : State} (h : Draining s) (hw : s.outsideWaits = true) :
    core.run (s.rxQueue.length + 1) s = drainAll s.rxQueue s := by
  generalize hq : s.rxQueue = q
  induction q generalizing s with
  | nil => exact core_run_next 0 ((h.step_waiting hw).trans (blockStep_empty h.phase hq))
  | cons f q ih =>
    obtain ⟨u, hu, hdrain, huq, hui, hup⟩ := h.processFrame_next hq
    have hstep : step s = .next u := (h.step_waiting hw).trans ((blockStep_frame h.phase hq).trans hu)
    have hrest : core.run (q.length + 1) u = drainAll q u :=
      ih hdrain ((outsideWaits_congr hui hup).trans hw) huq
    exact (core_run_next _ hstep).trans (hrest.trans (drainAll_cons q hu).symm)

/-! ### The start of a `RUN` -/

/-- With a collaborator unbound a `RUN` does nothing (R140). -/
theorem execRun_unbound {s : State} (now : Nat) (hp : s.phase = .idle)
    (hu : s.tpBound = false ∨ s.motorBound = false) : exec (.run now) s = .next s := by
  simp only [exec, execRun, hostCall_idle hp, if_pos hu]

/-- On an opened node with both collaborators bound a `RUN` starts (R140). -/
theorem execRun_bound {s : State} (now : Nat) (hp : s.phase = .idle)
    (hb : ¬ (s.tpBound = false ∨ s.motorBound = false)) (hlc : s.lc = .opened) :
    exec (.run now) s = .next (startRun now s) := by
  simp only [exec, execRun, hostCall_idle hp, if_neg hb, hlc, ne_eq, not_true_eq_false, if_false]

theorem draining_startRun {s : State} (now : Nat) (h : s.Inv) (hs : s.sound)
    (hb : ¬ (s.tpBound = false ∨ s.motorBound = false)) (hlc : s.lc = .opened)
    (h8 : ∀ f ∈ s.rxQueue, f.len ≤ 8) : Draining (startRun now s) where
  inv := by
    rw [not_or, Bool.not_eq_false, Bool.not_eq_false] at hb
    exact inv_startRun h now hlc hb.1 hb.2
  sound := (startRun_refused now s).trans hs
  phase := startRun_phase now s
  short := by rwa [startRun_rxQueue]

/-! ### A peer that keeps a `RUN` from ending -/

/-- A `RUN` beside a peer that sends `f` before each of the block's polls: its frame is next, or it has just come and
the block's turn is next. -/
structure Flooded (f : Frame) (rest : List Event) (s : State) : Prop where
  draining : Draining s
  allowed : s.params.rxArrivals = .allowed
  next : s.inputs = .unending (.repeats [some f, none]) :: rest ∨
    s.inputs = .unending (.repeats [none, some f]) :: rest ∧ s.rxQueue ≠ []

/-- The queue is never empty at a poll, so the `RUN` goes on (R281). -/
theorem Flooded.step_next {f : Frame} {rest : List Event} (hf : f.len ≤ 8) (s : State) (h : Flooded f rest s) :
    ∃ t, step s = .next t ∧ Flooded f rest t := by
  have hm : mayArrive s = true := (mayArrive_iff s).2 (.inr h.allowed)
  rw [step_sound h.draining.sound]
  obtain hi | ⟨hi, hne⟩ := h.next
  · have hd := h.draining.setInputs (.unending (.repeats [none, some f]) :: rest)
    have hx := nextStep_arrival hi (.peer _ rfl) hm
    have hreceived := hx.trans (congrArg _ (receive_started hd.busStarted f))
    exact ⟨_, hreceived, hd.queued hf, h.allowed, .inr ⟨rfl, by simp⟩⟩
  · obtain ⟨g, q, hq⟩ := List.exists_cons_of_ne_nil hne
    have hd := h.draining.setInputs (.unending (.repeats [some f, none]) :: rest)
    obtain ⟨t, ht, hdt, -, hti, htp⟩ := hd.processFrame_next hq
    have hx := (nextStep_peerTurn hi hm rfl).trans (blockStep_frame hd.phase hq)
    exact ⟨t, hx.trans ht, hdt, (congrArg _ htp).trans h.allowed, .inl hti⟩

end Sys2Proof.Machine

open Sys2Proof Sys2Proof.Machine

/-- Settles O7: `nextStep` decodes the operation at the head of the list and runs it. -/
theorem stepRunsHostOperation : Obligations.StepRunsHostOperation :=
  fun _ _ _ _ => step_host

/-- Settles O33: with a collaborator unbound every step is idle, otherwise the steps after the start are the drain. -/
theorem runIsOneTransaction : Obligations.RunIsOneTransaction := by
  intro s now hinv hs hp hi hready h8
  have hstep : step s = exec (.run now) { s with inputs := [] } := step_host hs hi rfl
  by_cases hu : s.tpBound = false ∨ s.motorBound = false
  · have hidle := core_run_idle (s := { s with inputs := [] }) hs hp rfl (s.rxQueue.length + 1)
    have hnothing : runTransaction now { s with inputs := [] } = .next { s with inputs := [] } := if_pos hu
    exact (core_run_next _ (hstep.trans (execRun_unbound now hp hu))).trans (hidle.trans hnothing.symm)
  · have hlc : s.lc = .opened := hready.resolve_right hu
    have hd : Draining (startRun now { s with inputs := [] }) :=
      draining_startRun now (inv_setInputs hinv []) hs hu hlc h8
    have hw : (startRun now { s with inputs := [] }).outsideWaits = true := by
      simp only [State.outsideWaits, startRun_inputs]
    have hdrain := core_run_drain hd hw
    rw [startRun_rxQueue] at hdrain
    rw [core_run_next _ (hstep.trans (execRun_bound now hp hu hlc)), hdrain, runTransaction, if_neg hu,
      if_neg (not_not_intro hlc)]

/-- Settles O34: a step ends a `RUN` only by `RunEnds`; the drain loop empties the queue; `Flooded` never ends. -/
theorem runEndsOnlyAtEmptyPoll : Obligations.RunEndsOnlyAtEmptyPoll := by
  refine ⟨fun s t hp hx hne => ?_, fun s hinv hs hp hw h8 => ?_, fun s f rest hinv hs hp ha hi hf h8 n => ?_⟩
  · obtain ⟨hidle, hbefore, hafter⟩ := ((step_cases hx).2.drain_or_ends hp).resolve_left hne
    exact ⟨hidle, hbefore, hafter⟩
  · have hd : Draining s := ⟨hinv, hs, hp, h8⟩
    rw [core_run_drain hd hw]
    exact drainAll_ends hd
  · have hstart : Flooded f rest s := ⟨⟨hinv, hs, hp, h8⟩, ha, .inl hi⟩
    obtain ⟨t, ht, hflood⟩ := core_run_keeps (Flooded.step_next hf) n s hstart
    exact ⟨t, ht, hflood.draining.sound, hflood.draining.phase⟩

/-- Settles O54: an opened node has loopback off, so only an arrival could add to the queue. -/
theorem ownFramesNeverReenter : Obligations.OwnFramesNeverReenter := by
  intro s t hinv hlc hrx hremote hpeer hx
  obtain ⟨-, -, -, hopen, -⟩ := hinv
  have hl : s.loopback = false := (hopen hlc).2.1
  cases (step_cases hx).2 with
  | block _ hb => exact hb.rxQueue_suffix hl
  | tick _ _ _ hb => exact hb.rxQueue_suffix hl
  | returned => exact List.suffix_rfl
  | motor => exact List.suffix_rfl
  | badHost => exact List.suffix_rfl
  | host _ _ _ _ _ _ hexec => exact (exec_rxQueue hexec hl).symm ▸ List.suffix_rfl
  | rx f rest hi => exact absurd hi (hrx f rest)
  | rxRemote e id n rest hi => exact absurd hi (hremote e id n rest)
  | peerTurn p rest _ hi => exact absurd hi (hpeer p rest)
  | peerFrame p rest _ hi => exact absurd hi (hpeer p rest)

end

section
/-! SUPPORT. The frames and host operations a decoder answer stands for (R80, R86, R90, R111), the checks a frame of the
node's own address passes (R142 to R147), and the step that runs a placed table word (log entry 9). -/

namespace Sys2Proof

/-- An extended frame is the frame of its own command (R80). -/
theorem commandFrame_eta {f : Frame} (he : f.ext = true) :
    commandFrame (idRest f.id) (commandId f.id) f.data = .frame f := by
  rw [commandFrame, commandIdent_eta, ← he]

/-- A frame whose command the map does not list is no instruction (R90). -/
theorem decodeFrame_unlisted {f : Frame} (h8 : commandId f.id ≠ cmdProcessShortBuffer)
    (h10 : commandId f.id ≠ cmdSetCurrentRel) (h17 : commandId f.id ≠ cmdPing)
    (h56 : commandId f.id ≠ cmdPollRotorPos) : ∃ r, decodeFrame f = .reject r := by
  cases hd : decodeFrame f with
  | reject r => exact ⟨r, rfl⟩
  | instr i =>
    obtain ⟨-, -, ⟨h, -⟩ | ⟨h, -⟩ | ⟨h, -⟩ | ⟨h, -⟩⟩ := decodeFrame_instr hd
    · exact absurd h h8
    · exact absurd h h10
    · exact absurd h h17
    · exact absurd h h56

/-- A host code outside 1 to 6 names no operation (R111). -/
theorem decodeHost_unnamed {w : HostWord} (h : w.code = 0 ∨ 7 ≤ w.code.toNat) : decodeHost w = .reject .badHostOp := by
  have hne : ∀ c : BitVec 4, 0 < c.toNat → c.toNat < 7 → w.code ≠ c := by
    rintro c hpos hlt rfl
    obtain h0 | h7 := h
    · simp [h0] at hpos
    · omega
  unfold decodeHost
  rw [if_neg (hne 1#4 (by decide) (by decide)), if_neg (hne 2#4 (by decide) (by decide)),
    if_neg (hne 3#4 (by decide) (by decide)), if_neg (hne 4#4 (by decide) (by decide)),
    if_neg (hne 5#4 (by decide) (by decide)), if_neg (hne 6#4 (by decide) (by decide))]

/-! ### The table words -/

theorem targetId_or_one_ne_zero (id : Ident) : targetId (id ||| 1) ≠ 0 := by
  intro h
  have hbit := congrArg (BitVec.getLsbD · 0) h
  simp [targetId] at hbit

/-- The frame of a table word is never addressed to 0 (log entry 9). -/
theorem targetId_tableTarget_ne_zero (id : Ident) : targetId (tableTarget id) ≠ 0 := by
  unfold tableTarget
  split
  · exact targetId_or_one_ne_zero id
  · assumption

theorem targetId_ne_zero_of_tableItem {nbits w : Nat} {f : Frame} (h : tableItem nbits w = some (.frame f)) :
    targetId f.id ≠ 0 := by
  unfold tableItem at h
  split at h
  · split at h <;> cases h
  · split at h
    · cases h; exact targetId_tableTarget_ne_zero _
    · split at h
      · cases h; exact targetId_tableTarget_ne_zero _
      · cases h

theorem decodeTableWord_eq_some {nbits w : Nat} {i : Instr} (h : decodeTableWord nbits w = some i) :
    ∃ it, tableItem nbits w = some it ∧ decode it = .instr i := by
  unfold decodeTableWord at h
  cases ht : tableItem nbits w with
  | none => simp [ht] at h
  | some it =>
    cases hd : decode it with
    | reject r => simp [ht, hd] at h
    | instr j =>
      simp only [ht, hd, Option.some.injEq] at h
      exact ⟨it, rfl, h ▸ hd⟩

end Sys2Proof

namespace Sys2Proof.Machine

/-! ### The checks before routing -/

/-- The filter mask of `OPEN` leaves the target byte (R122). -/
theorem and_targetMask (id : Ident) : id &&& 0x000000FF#29 = (targetId id).setWidth 29 := by
  apply BitVec.eq_of_toNat_eq
  have hlt : id.toNat % 2 ^ 8 < 2 ^ 29 := by omega
  have hmask : (0x000000FF#29).toNat = 2 ^ 8 - 1 := rfl
  rw [BitVec.toNat_and, hmask, Nat.and_two_pow_sub_one_eq_mod, BitVec.toNat_setWidth, targetId,
    BitVec.extractLsb'_toNat, Nat.shiftRight_zero, Nat.mod_eq_of_lt hlt]

theorem targetId_setWidth (b : Byte) : targetId (b.setWidth 29) = b := by
  have hb := b.isLt
  apply BitVec.eq_of_toNat_eq
  rw [targetId, BitVec.extractLsb'_toNat, Nat.shiftRight_zero, BitVec.toNat_setWidth]
  omega

/-- The filter that `OPEN` installs accepts the extended frames of the node's own address (R122, R143). -/
theorem accepts_ownFilter {s : State} (hid : s.filtId = s.nodeAddr.setWidth 29) (hmask : s.filtMask = 0x000000FF#29)
    (hext : s.filtExt = true) (f : Frame) :
    accepts s f = (f.ext && targetId f.id == s.nodeAddr) := by
  have hinj : (targetId f.id).setWidth 29 = s.nodeAddr.setWidth 29 ↔ targetId f.id = s.nodeAddr := by
    refine ⟨fun h => ?_, fun h => h ▸ rfl⟩
    rw [← targetId_setWidth (targetId f.id), h, targetId_setWidth]
  rw [accepts, hmask, hid, hext, and_targetMask, and_targetMask, targetId_setWidth, Bool.eq_iff_iff]
  simp only [Bool.and_eq_true, beq_iff_eq, hinj]

/-- The address predicate is that the target is not 0, whatever the node's address (R147). -/
theorem addrPass_iff (node target : Byte) : addrPass node target = true ↔ target ≠ 0 := by
  have hall : target &&& 0xFF#8 = target := BitVec.and_allOnes
  simp only [addrPass, hall, Bool.or_eq_true, bne_iff_ne]
  refine ⟨?_, .inr⟩
  rintro (h | h) rfl
  · simp at h
  · exact h rfl

/-- A frame for the node's own address, which is not 0, passes every check (R142). -/
theorem screenFrame_ownFrame {s : State} {f : Frame} (h8 : f.len ≤ 8) (he : f.ext = true)
    (ha : accepts s f = true) (ht : targetId f.id ≠ 0) : screenFrame s f = .pass := by
  unfold screenFrame
  rw [if_neg (by omega), if_neg (by simp [ha]), if_neg (by simp [he]), if_neg (by simp [(addrPass_iff _ _).2 ht])]

/-- A frame past the checks that decodes is run with `RXF` loaded (R142, R148). -/
theorem processFrame_instr {s : State} {f : Frame} {i : Instr} (hs : screenFrame s f = .pass)
    (hd : decodeFrame f = .instr i) : processFrame f s = exec i { s with rxf := f } := by
  have hs' : screenFrame { s with rxf := f } f = .pass := hs
  simp only [processFrame, hs', hd]

/-- A frame past the checks that is no instruction is dropped (R104, R148). -/
theorem processFrame_reject {s : State} {f : Frame} {r : Reject} (hs : screenFrame s f = .pass)
    (hd : decodeFrame f = .reject r) : processFrame f s = dropFrame .unknownCommand { s with rxf := f } := by
  have hs' : screenFrame { s with rxf := f } f = .pass := hs
  simp only [processFrame, hs', hd]

/-! ### The step after placing a word -/

theorem step_withHostOp {w : HostWord} {i : Instr} (s : State) (hd : decodeHost w = .instr i) :
    step (s.withHostOp w) = exec i { s with refused := none, phase := .idle } :=
  step_host (s := s.withHostOp w) rfl rfl hd

/-- The placed frame is the node's own, so it passes the checks (log entry 9). -/
theorem screenFrame_withFrame {f : Frame} {i : Instr} (s : State) (hd : decodeFrame f = .instr i)
    (ht : targetId f.id ≠ 0) :
    screenFrame { s.withFrame f with inputs := s.inputs, rxQueue := s.rxQueue } f = .pass := by
  obtain ⟨h8, he, -⟩ := decodeFrame_instr hd
  refine screenFrame_ownFrame h8 he ?_ ht
  rw [accepts_ownFilter rfl rfl rfl, he]
  exact beq_self_eq_true (targetId f.id)

theorem step_withFrame {f : Frame} {i : Instr} (s : State) (hd : decodeFrame f = .instr i) (ht : targetId f.id ≠ 0) :
    step (s.withFrame f) =
      exec i { s.withFrame f with inputs := s.inputs, rxQueue := s.rxQueue, rxf := f } := by
  have hturn : step (s.withFrame f) = blockStep { s.withFrame f with inputs := s.inputs } := step_sound rfl
  have hhead := blockStep_frame (s := { s.withFrame f with inputs := s.inputs }) (f := f) (q := s.rxQueue) rfl rfl
  exact hturn.trans (hhead.trans (processFrame_instr (screenFrame_withFrame s hd ht) hd))

end Sys2Proof.Machine

open Sys2Proof Sys2Proof.Machine

/-- Settles O2: the round trip of each constructor. -/
theorem decodeOfEncodeIsIdentity : Obligations.DecodeOfEncodeIsIdentity := by
  intro i
  cases i with
  | processShortBuffer hdr p => exact Laws.RoundTrip.processShortBuffer hdr p
  | setCurrentRel hdr p => exact Laws.RoundTrip.setCurrentRel hdr p
  | ping hdr p => exact Laws.RoundTrip.ping hdr p
  | pollRotorPos hdr p => exact Laws.RoundTrip.pollRotorPos hdr p
  | sbFwVersion hdr r x rest => exact Laws.RoundTrip.sbFwVersion hdr r x rest
  | sbGetValuesSelective hdr r x rest => exact Laws.RoundTrip.sbGetValuesSelective hdr r x rest
  | configure tp m a b => exact Laws.RoundTrip.configure tp m a b
  | openBus => exact Laws.RoundTrip.openBus
  | setRemoteEnable b => exact Laws.RoundTrip.setRemoteEnable b
  | setVoltage v => exact Laws.RoundTrip.setVoltage v
  | setError e => exact Laws.RoundTrip.setError e
  | run now => exact Laws.RoundTrip.run now

/-- Settles O3: the command map keeps the header and the payload, and an identifier is its three fields. -/
theorem encodeOfDecodedFrameIsIdentity : Obligations.EncodeOfDecodedFrameIsIdentity := by
  intro f i hd
  obtain ⟨h8, he, hcmd⟩ := decodeFrame_instr hd
  have hframe := commandFrame_eta he
  obtain ⟨hc, rfl⟩ | ⟨hc, rfl⟩ | ⟨hc, rfl⟩ | ⟨hc, rfl⟩ := hcmd <;> rw [hc] at hframe
  · exact ⟨(encode_decodeShortBuffer _ _).trans hframe, wf_decodeShortBuffer _ _ h8⟩
  · exact ⟨hframe, decide_eq_true h8, rfl⟩
  · exact ⟨hframe, decide_eq_true h8, rfl⟩
  · exact ⟨hframe, decide_eq_true h8, rfl⟩

/-- Settles O6: a placed host operation is issued, and a placed frame is read and passes the checks. -/
theorem placedTableWordRunsNext : Obligations.PlacedTableWordRunsNext := by
  intro s nbits w i h
  obtain ⟨it, hit, hd⟩ := decodeTableWord_eq_some h
  refine ⟨it, hit, hd, ?_⟩
  unfold State.withFetchWord
  rw [hit]
  cases it with
  | host w => exact step_withHostOp s hd
  | frame f => exact step_withFrame s hd (targetId_ne_zero_of_tableItem hit)

/-- Settles O1: the decoder evaluated on each written word. -/
theorem writtenWordsDecode : Obligations.WrittenWordsDecode :=
  ⟨rfl, rfl, rfl, rfl, rfl, rfl, rfl, rfl, rfl, rfl, rfl, rfl, rfl⟩

/-- Settles O5: each code evaluates to its operation; a code without one is refused by the step that issues it. -/
theorem hostCodesNameTheirOperations : Obligations.HostCodesNameTheirOperations := by
  refine ⟨fun w => ?_, fun s w rest hs hi hcode => ?_⟩
  · unfold decodeHost
    refine ⟨?_, ?_, ?_, ?_, ?_, ?_⟩ <;> intro h <;> rw [h] <;> rfl
  · have hs' : s.refused = none := hs
    rw [step_sound hs]
    simp only [nextStep, hi, hostStep, decodeHost_unnamed hcode, refuse, State.markRefused, hs']

/-- Settles O10: past the checks, an unlisted command does not decode. -/
theorem unknownCommandIsDropped : Obligations.UnknownCommandIsDropped := by
  intro s f hs h8 h10 h17 h56
  obtain ⟨r, hd⟩ := decodeFrame_unlisted h8 h10 h17 h56
  exact processFrame_reject hs hd

end

section
/-! SUPPORT. What the received commands answer, as one update each with the replies written out byte by byte (R82, R92 to
R107, R165, R167, R170, R190, R193). -/

namespace Sys2Proof.Machine

/-! ### The replies, byte by byte -/

theorem statusByte_eq (e : Int) : statusByte e = if e = 0 then 0x00#8 else 0x01#8 := by
  unfold statusByte errorFlag
  by_cases h : e = 0 <;> simp [h]

/-- The voltage reply (R96, R103). -/
theorem valueFrame_maskVoltage (replyTo node b : Byte) :
    valueFrame replyTo node maskVoltage b =
      ⟨true, replyTo.setWidth 29 ||| (8#29 <<< 8), [node, 0x00, 0x32, 0x00, 0x00, 0x01, 0x00, b]⟩ := rfl

/-- The status reply (R97, R103). -/
theorem valueFrame_maskStatus (replyTo node b : Byte) :
    valueFrame replyTo node maskStatus b =
      ⟨true, replyTo.setWidth 29 ||| (8#29 <<< 8), [node, 0x00, 0x32, 0x00, 0x00, 0x80, 0x00, b]⟩ := rfl

/-- Only the status reply echoes `00 00 80 00` (R103). -/
theorem eq_statusReply_of_mem {replyTo b : Byte} {mask : Word} {s : State} {f : Frame}
    (hf : f ∈ answerFrames replyTo mask b s) (hecho : (f.data.drop 3).take 4 = [0x00#8, 0x00#8, 0x80#8, 0x00#8]) :
    f = valueFrame replyTo s.nodeAddr maskStatus (statusByte s.error) := by
  rw [answerFrames, List.mem_append] at hf
  obtain hf | hf := hf
  · have hv : f = valueFrame replyTo s.nodeAddr maskVoltage b := by
      split at hf
      · exact List.mem_singleton.1 hf
      · cases hf
    rw [hv, valueFrame_maskVoltage] at hecho
    simp at hecho
  · split at hf
    · exact List.mem_singleton.1 hf
    · cases hf

theorem statusReply_mem {mask : Word} (h : asksStatus mask = true) (replyTo b : Byte) (s : State) :
    valueFrame replyTo s.nodeAddr maskStatus (statusByte s.error) ∈ answerFrames replyTo mask b s := by
  rw [answerFrames, if_pos h]
  exact List.mem_append_right _ (List.mem_singleton.2 rfl)

/-- A mask with neither bit asks for no reply (R107). -/
theorem answerFrames_eq_nil {mask : Word} (h8 : asksVoltage mask = false) (h15 : asksStatus mask = false)
    (replyTo b : Byte) (s : State) : answerFrames replyTo mask b s = [] := by
  simp [answerFrames, h8, h15]

/-- Of a mask only the two bits matter (R107). -/
theorem answerMask_congr {m k : Word} (h8 : asksVoltage m = asksVoltage k) (h15 : asksStatus m = asksStatus k)
    (replyTo : Byte) : answerMask replyTo m = answerMask replyTo k := by
  unfold answerMask
  rw [h8, h15]

/-! ### The identifier of a reply -/

/-- A reply's identifier bits 28:16 are 0 (R82). -/
theorem extractLsb'_replyIdent (tgt cmd : Byte) : (replyIdent tgt cmd).extractLsb' 16 13 = 0#13 := by
  refine BitVec.eq_of_getLsbD_eq fun i hi => ?_
  have htgt : tgt.getLsbD (16 + i) = false := BitVec.getLsbD_of_ge _ _ (by omega)
  have hcmd : cmd.getLsbD (16 + i - 8) = false := BitVec.getLsbD_of_ge _ _ (by omega)
  simp [replyIdent, htgt, hcmd]

/-- What `t` has sent beyond `s` is composed as R82 says. -/
def SendsReplies (s t : State) : Prop := ∃ new, t.out = s.out ++ new ∧ ∀ f, .tx f ∈ new → IsReply f

theorem SendsReplies.of_silent {s t : State} (os : List Output) (h : t.out = s.out ++ os) (hos : ∀ f, .tx f ∉ os) :
    SendsReplies s t :=
  ⟨os, h, fun f hf => absurd hf (hos f)⟩

theorem SendsReplies.of_out_eq {s t : State} (h : t.out = s.out) : SendsReplies s t :=
  .of_silent [] (by rw [h, List.append_nil]) (by simp)

/-- The start of a `RUN` sends nothing: the watchdog's outputs are no frames (R233). -/
theorem SendsReplies.startRun (now : Nat) (s : State) : SendsReplies s (startRun now s) := by
  rw [startRun_eq]
  split
  · exact .of_silent [.motorDisable, .diag .wdTimeout] rfl (by simp)
  · exact .of_out_eq rfl

theorem SendsReplies.of_exec {i : Instr} {s t : State} (h : exec i s = .next t) : SendsReplies s t := by
  cases exec_cases h with
  | bus _ _ _ os _ _ _ he => exact ⟨os, rfl, fun f hf => he.replies f (he.sent f hf)⟩
  | refused => exact .of_out_eq rfl
  | host _ he =>
    cases he with
    | run _ now => exact .startRun now s
    | configure | openBus | setRemoteEnable | setVoltage | setError | runNothing => exact .of_out_eq rfl

/-! ### The short drops -/

theorem leadingWord_eq_none {p : List Byte} (h : p.length < 4) : leadingWord p = none := by
  match p, h with
  | [], _ | [_], _ | [_, _], _ | [_, _, _], _ => rfl

/-- A short request is dropped before any side effect (R193). -/
theorem getValuesSelective_short {rest : List Byte} (h : rest.length < 4) (replyTo : Byte) (s : State) :
    getValuesSelective replyTo rest s = dropFrame .gvsShort s := by
  simp only [getValuesSelective, maskOperand, leadingWord_eq_none h]

/-- A short buffer without `data[2]` is dropped (R170). -/
theorem execProcessShortBuffer_short {p : List Byte} (h : p.length < 3) (s : State) :
    execProcessShortBuffer p s = dropFrame .sbShort s := by
  match p, h with
  | [], _ | [_], _ | [_, _], _ => rfl

end Sys2Proof.Machine

open Sys2Proof Sys2Proof.Machine

/-- Settles O49: only a received command sends, and it sends replies. -/
theorem transmittedFramesAreComposed : Obligations.TransmittedFramesAreComposed := by
  intro i s t hx
  obtain ⟨new, hout, hreply⟩ := SendsReplies.of_exec hx
  refine ⟨new, hout, fun f hf => ?_⟩
  obtain ⟨hext, ⟨tgt, cmd, hid⟩, h8⟩ := hreply f hf
  exact ⟨hext, h8, hid ▸ extractLsb'_replyIdent tgt cmd, tgt, cmd, hid⟩

/-- Settles O39: `PING` is one transmission. -/
theorem pingRepliesPong : Obligations.PingRepliesPong :=
  fun s _ _ => congrArg Host.Outcome.next (State.txWrite_eq (pongFrame s.nodeAddr) s)

/-- Settles O43: `FW_VERSION` is one transmission. -/
theorem fwVersionRepliesConstants : Obligations.FwVersionRepliesConstants :=
  fun s _ r _ _ => congrArg Host.Outcome.next (fwVersion_eq r s)

/-- Settles O42: the sub-command row has the meaning of the general row on its own payloads (R170). -/
theorem processShortBufferDelegates : Obligations.ProcessShortBufferDelegates := by
  refine ⟨fun s _ r _ _ => congrArg Host.Outcome.next (fwVersion_eq r s), fun _ _ _ _ _ _ _ => rfl,
    fun s _ _ _ sub _ h0 h50 => ?_, fun s _ _ h => execProcessShortBuffer_short h s⟩
  have h0' : ¬ sub = subFwVersion := h0
  have h50' : ¬ sub = subGetValuesSelective := h50
  simp only [exec, execProcessShortBuffer, if_neg h0', if_neg h50', dropFrame, State.recordDrop]

/-- Settles O40: the code is the parameter's where the angle has one, and otherwise the draw. -/
theorem pollRepliesRotorCode : Obligations.PollRepliesRotorCode := by
  intro s hdr payload
  simp only [exec, execPollRotorPos, rotorCode]
  cases hang : angleIdeal s.motor.shaftAngle with
  | none =>
    refine ⟨Config.freeWord s.draws, 1, nofun, fun _ => rfl, ?_⟩
    simp only [State.txWrite_eq]; rfl
  | some c =>
    cases hcode : s.params.angleCode with
    | default =>
      refine ⟨c, 0, ?_, nofun, ?_⟩
      · rintro _ ⟨⟩; exact ⟨rfl, fun _ => rfl, nofun⟩
      · simp only [State.txWrite_eq]; rfl
    | implementation =>
      refine ⟨Config.angleOther s.motor.shaftAngle, 0, ?_, nofun, ?_⟩
      · rintro _ ⟨⟩; exact ⟨rfl, nofun, fun _ => rfl⟩
      · simp only [State.txWrite_eq]; rfl

/-- Settles O44: the request as one update, its replies written out. -/
theorem getValuesSelectiveEffects : Obligations.GetValuesSelectiveEffects := by
  refine ⟨fun s hdr r x m0 m1 m2 m3 more => ?_, fun s _ r _ _ h => getValuesSelective_short h r s⟩
  obtain ⟨stamp, b, -, hstamp, hbyte, hx⟩ := request_eq r (be32 m0 m1 m2 m3) s
  refine ⟨stamp, b, hstamp, hbyte, ?_⟩
  refine (congrArg Host.Outcome.next hx).trans ?_
  simp only [answerFrames, valueFrame_maskVoltage, valueFrame_maskStatus, statusByte_eq]
  rfl

/-- Settles O46: of the frames a request sends, only the status reply echoes this mask. -/
theorem statusByteReportsError : Obligations.StatusByteReportsError := by
  intro s hdr r x m0 m1 m2 m3 more h15
  obtain ⟨stamp, b, -, -, -, hx⟩ := request_eq r (be32 m0 m1 m2 m3) s
  refine ⟨_, _, congrArg Host.Outcome.next hx, List.append_assoc _ _ _, ?_, fun f hf hecho => ?_⟩
  · exact ⟨_, List.mem_append_right _ (List.mem_map_of_mem (statusReply_mem h15 r b s)), rfl⟩
  · have hmem : f ∈ answerFrames r (be32 m0 m1 m2 m3) b s := by
      obtain hq | hm := List.mem_append.1 hf
      · split at hq <;> simp at hq
      · simpa using hm
    rw [eq_statusReply_of_mem hmem hecho, valueFrame_maskStatus, statusByte_eq]
    exact ⟨rfl, fun hne => by rw [if_neg hne]; rfl, fun hz => by rw [if_pos hz]; rfl⟩

/-- Settles O47: a mask is read through its two bits; with neither the request is its two side effects. -/
theorem otherMaskBitsAreUnanswered : Obligations.OtherMaskBitsAreUnanswered := by
  refine ⟨fun s hdr r x m0 m1 m2 m3 k0 k1 k2 k3 more more' h8 h15 => ?_,
    fun s hdr r x m0 m1 m2 m3 more h8 h15 => ?_⟩
  · exact congrArg (fun f => Host.Outcome.next (f (enableQuirk (refreshWatchdog s)))) (answerMask_congr h8 h15 r)
  · obtain ⟨stamp, b, -, hstamp, -, hx⟩ := request_eq r (be32 m0 m1 m2 m3) s
    rw [answerFrames_eq_nil h8 h15] at hx
    refine ⟨_, congrArg Host.Outcome.next hx, fun f hf => ?_, ?_, fun hc hg => ?_, fun he hr => ?_⟩
    · simp only [List.map_nil, List.append_nil, List.mem_append] at hf
      obtain hf | hf := hf
      · exact hf
      · split at hf <;> simp at hf
    · simp [echoed]
    · simp only [if_pos hg, hstamp hc]
    · simp only [he, hr, and_self, if_true]

end

section
/-! SUPPORT. What a frame past the checks does depends on its command id and payload only, and on the copy of the frame in
`RXF` only for the record of a drop (R81, R106, R142, R148, R221). -/

namespace Sys2Proof.Machine

/-! ### Processing by command id and payload -/

/-- A frame that the checks refuse (R83, R142). -/
theorem processFrame_refuse {s : State} {f : Frame} {r : RefuseReason} (hs : screenFrame s f = .refuse r) :
    processFrame f s = refuse r { s with rxf := f } := by
  have hs' : screenFrame { s with rxf := f } f = .refuse r := hs
  simp only [processFrame, hs']

/-- A frame that the checks drop (R142, R222). -/
theorem processFrame_drop {s : State} {f : Frame} {r : DropReason} (hs : screenFrame s f = .drop r) :
    processFrame f s = dropFrame r { s with rxf := f } := by
  have hs' : screenFrame { s with rxf := f } f = .drop r := hs
  simp only [processFrame, hs']

/-- A short buffer means what R170 says of its payload, whichever row it is decoded to (log entry 8). -/
theorem exec_decodeShortBuffer (hdr : IdRest) (p : List Byte) (s : State) :
    exec (decodeShortBuffer hdr p) s = execProcessShortBuffer p s := by
  unfold decodeShortBuffer
  split
  · split
    · rename_i h; subst h; rfl
    · split
      · rename_i h; subst h; rfl
      · rfl
  · rfl

/-- The handler that the command map gives a payload (R90, R148). -/
def handle (cmd : Byte) (payload : List Byte) (s : State) : Result :=
  if cmd = cmdProcessShortBuffer then execProcessShortBuffer payload s
  else if cmd = cmdSetCurrentRel then execSetCurrentRel payload s
  else if cmd = cmdPing then execPing s
  else if cmd = cmdPollRotorPos then execPollRotorPos s
  else dropFrame .unknownCommand s

/-- Past the checks the identifier counts only through the command id (R81, R148). -/
theorem processFrame_pass {s : State} {f : Frame} (hs : screenFrame s f = .pass) :
    processFrame f s = handle (commandId f.id) f.data { s with rxf := f } := by
  obtain ⟨h8, -, he, -⟩ := screenFrame_pass hs
  have hd := Laws.decodeFrame_command (idRest f.id) (commandId f.id) f.data h8
  rw [commandFrame_eta he] at hd
  unfold handle
  split_ifs at hd ⊢
  · rw [processFrame_instr hs hd, exec_decodeShortBuffer]
  · exact processFrame_instr hs hd
  · exact processFrame_instr hs hd
  · exact processFrame_instr hs hd
  · exact processFrame_reject hs hd

/-! ### The copy in `RXF` -/

/-- The state with `g` in `RXF`. -/
def State.withRxf (g : Frame) (s : State) : State := { s with rxf := g }

/-- An update that neither reads nor writes `RXF`. -/
def IgnoresRxf (F : State → State) : Prop := ∀ (s : State) (g : Frame), F (s.withRxf g) = (F s).withRxf g

theorem IgnoresRxf.comp {F G : State → State} (hG : IgnoresRxf G) (hF : IgnoresRxf F) : IgnoresRxf fun s => G (F s) :=
  fun s g => (congrArg G (hF s g)).trans (hG (F s) g)

theorem ignoresRxf_drew (n : Nat) : IgnoresRxf (State.drew n) := fun _ _ => rfl

theorem ignoresRxf_txWrite (f : Frame) : IgnoresRxf (State.txWrite f) := by
  intro s g
  rw [State.txWrite_eq, State.txWrite_eq]
  rfl

theorem ignoresRxf_fwVersion (replyTo : Byte) : IgnoresRxf (fwVersion replyTo) :=
  fun s g => ignoresRxf_txWrite _ s g

theorem ignoresRxf_stamp : IgnoresRxf State.stamp := by
  intro s g
  cases h : s.params.refreshStamp <;> simp only [State.stamp, State.withRxf, h]

theorem ignoresRxf_refreshWatchdog : IgnoresRxf refreshWatchdog := by
  intro s g
  unfold refreshWatchdog
  by_cases hg : s.params.wdRefreshGated = false ∨ s.remoteEn = true
  · exact (if_pos hg).trans ((ignoresRxf_stamp s g).trans (by rw [if_pos hg]))
  · exact (if_neg hg).trans (by rw [if_neg hg])

theorem ignoresRxf_enableQuirk : IgnoresRxf enableQuirk := by
  intro s g
  unfold enableQuirk
  by_cases hq : s.motor.enabled = false ∧ s.remoteEn = false
  · exact (if_pos hq).trans (by rw [if_pos hq]; rfl)
  · exact (if_neg hq).trans (by rw [if_neg hq])

theorem ignoresRxf_voltageReply (replyTo : Byte) : IgnoresRxf (voltageReply replyTo) := by
  intro s g
  have hb : voltageByte (s.withRxf g) = voltageByte s := rfl
  unfold voltageReply
  rw [hb]
  cases voltageByte s with
  | some b => exact ignoresRxf_txWrite _ s g
  | none => exact (ignoresRxf_drew 1).comp (ignoresRxf_txWrite _) s g

theorem ignoresRxf_statusReply (replyTo : Byte) : IgnoresRxf (statusReply replyTo) :=
  fun s g => ignoresRxf_txWrite _ s g

theorem ignoresRxf_answerMask (replyTo : Byte) (mask : Word) : IgnoresRxf (answerMask replyTo mask) := by
  intro s g
  unfold answerMask
  by_cases h8 : asksVoltage mask = true <;> by_cases h15 : asksStatus mask = true <;>
    simp only [h8, h15, if_true, if_false, ignoresRxf_voltageReply replyTo s g,
      ignoresRxf_statusReply replyTo _ g, Bool.false_eq_true]

theorem ignoresRxf_driveTorque (raw : Word) : IgnoresRxf (driveTorque raw) := by
  intro s g
  unfold driveTorque
  cases ha : s.params.torqueArith with
  | implementation => simp only [State.withRxf, ha]; rfl
  | default =>
    cases hp : pack32 (torqueB64 s.motor.currentLimit raw) <;> simp only [State.withRxf, ha, hp] <;> rfl

/-! ### Processing two copies -/

/-- Two results that differ in the copies of the received frame only: the second's `RXF` is `g`, and the drop traces give
the same reasons. -/
def AlikeBut (g : Frame) (r q : Result) : Prop :=
  ∃ t, r = .next t ∧ ∃ ds, q = .next { t with rxf := g, drops := ds } ∧ ds.map (·.1) = t.drops.map (·.1)

/-- A meaning that reads `RXF` at most to record a drop. -/
def FrameBlind (R : State → Result) : Prop :=
  ∀ (s : State) (f g : Frame), AlikeBut g (R (s.withRxf f)) (R (s.withRxf g))

theorem IgnoresRxf.frameBlind {F : State → State} (h : IgnoresRxf F) : FrameBlind fun s => .next (F s) :=
  fun s f g => ⟨_, rfl, _, congrArg Host.Outcome.next (h (s.withRxf f) g), rfl⟩

theorem frameBlind_dropFrame (r : DropReason) : FrameBlind (dropFrame r) :=
  fun s f g => ⟨_, rfl, s.drops ++ [(r, g)], rfl, by simp [State.recordDrop, State.withRxf]⟩

theorem frameBlind_refuse (r : RefuseReason) : FrameBlind (refuse r) :=
  IgnoresRxf.frameBlind (F := State.markRefused r) fun _ _ => rfl

theorem frameBlind_getValuesSelective (replyTo : Byte) (rest : List Byte) :
    FrameBlind (getValuesSelective replyTo rest) := by
  unfold getValuesSelective
  cases maskOperand rest with
  | none => exact frameBlind_dropFrame .gvsShort
  | some mask =>
    exact ((ignoresRxf_answerMask replyTo mask).comp
      (ignoresRxf_enableQuirk.comp ignoresRxf_refreshWatchdog)).frameBlind

theorem frameBlind_execProcessShortBuffer (p : List Byte) : FrameBlind (execProcessShortBuffer p) := by
  unfold execProcessShortBuffer
  split
  · rename_i replyTo _ sub rest
    by_cases h0 : sub = subFwVersion
    · simp only [if_pos h0]
      exact (ignoresRxf_fwVersion replyTo).frameBlind
    by_cases h50 : sub = subGetValuesSelective
    · simp only [if_neg h0, if_pos h50]
      exact frameBlind_getValuesSelective replyTo rest
    · simp only [if_neg h0, if_neg h50]
      exact frameBlind_dropFrame .sbUnknownSub
  · exact frameBlind_dropFrame .sbShort

theorem frameBlind_execSetCurrentRel (p : List Byte) : FrameBlind (execSetCurrentRel p) := by
  intro s f g
  have hgate : ∀ h : Frame, (s.withRxf h).remoteEn = s.remoteEn := fun _ => rfl
  unfold execSetCurrentRel
  rw [hgate, hgate]
  split
  · exact frameBlind_dropFrame .scrRemoteDisabled s f g
  · cases torqueOperand p with
    | none => exact frameBlind_dropFrame .scrShort s f g
    | some raw => exact (ignoresRxf_driveTorque raw).frameBlind s f g

theorem frameBlind_execPing : FrameBlind execPing :=
  IgnoresRxf.frameBlind fun s g => ignoresRxf_txWrite (pongFrame s.nodeAddr) s g

theorem frameBlind_execPollRotorPos : FrameBlind execPollRotorPos := by
  intro s f g
  have hcode : ∀ h : Frame, rotorCode (s.withRxf h) = rotorCode s := fun _ => rfl
  unfold execPollRotorPos
  rw [hcode, hcode]
  cases rotorCode s with
  | some code => exact (ignoresRxf_txWrite (rotorFrame s.nodeAddr code)).frameBlind s f g
  | none => exact ((ignoresRxf_drew 1).comp (ignoresRxf_txWrite _)).frameBlind s f g

theorem frameBlind_handle (cmd : Byte) (p : List Byte) : FrameBlind (handle cmd p) := by
  unfold handle
  split
  · exact frameBlind_execProcessShortBuffer p
  · split
    · exact frameBlind_execSetCurrentRel p
    · split
      · exact frameBlind_execPing
      · split
        · exact frameBlind_execPollRotorPos
        · exact frameBlind_dropFrame .unknownCommand

/-! ### The ignored bits -/

/-- The reserved byte is not read (R106). -/
theorem execProcessShortBuffer_congr {p q : List Byte} (hlen : p.length = q.length)
    (h : ∀ k, k ≠ 1 → p[k]? = q[k]?) : execProcessShortBuffer p = execProcessShortBuffer q := by
  match p, q, hlen with
  | [], [], _ => rfl
  | [_], [_], _ => rfl
  | r :: x :: p, r' :: x' :: q, hlen =>
    have hr : r = r' := by simpa using h 0 (by decide)
    have hp : p = q := List.ext_getElem? fun k => h (k + 2) (by omega)
    subst hr hp
    cases p <;> rfl

theorem handle_congr {cmd : Byte} {p q : List Byte} (hlen : p.length = q.length)
    (h : p = q ∨ cmd = cmdProcessShortBuffer ∧ ∀ k, k ≠ 1 → p[k]? = q[k]?) : handle cmd p = handle cmd q := by
  obtain rfl | ⟨rfl, h⟩ := h
  · rfl
  · exact execProcessShortBuffer_congr hlen h

/-- The target and the command are identifier bits 15:0 (R81). -/
theorem targetId_congr {a b : Ident} (h : a.extractLsb' 0 16 = b.extractLsb' 0 16) : targetId a = targetId b := by
  refine BitVec.eq_of_getLsbD_eq fun i hi => ?_
  have hbit := congrArg (BitVec.getLsbD · i) h
  simpa [targetId, hi, Nat.lt_trans hi] using hbit

theorem commandId_congr {a b : Ident} (h : a.extractLsb' 0 16 = b.extractLsb' 0 16) : commandId a = commandId b := by
  refine BitVec.eq_of_getLsbD_eq fun i hi => ?_
  have hbit := congrArg (BitVec.getLsbD · (8 + i)) h
  have hlt : 8 + i < 16 := by omega
  simpa [commandId, hi, hlt] using hbit

/-- On an opened node the checks read the length, the frame type and the target (R142 to R147). -/
theorem screenFrame_congr {s : State} {f g : Frame} (hinv : s.Inv) (hlc : s.lc = .opened) (hext : f.ext = g.ext)
    (hlen : f.len = g.len) (htgt : targetId f.id = targetId g.id) : screenFrame s f = screenFrame s g := by
  obtain ⟨-, -, -, hopen, -⟩ := hinv
  obtain ⟨-, -, hid, hmask, hfe⟩ := hopen hlc
  unfold screenFrame
  rw [accepts_ownFilter hid hmask hfe, accepts_ownFilter hid hmask hfe, hext, hlen, htgt]

end Sys2Proof.Machine

open Sys2Proof Sys2Proof.Machine

/-- Settles O13: the checks say the same of both frames, and then both have the same handler, which is frame-blind. -/
theorem ignoredFrameBitsChangeNothing : Obligations.IgnoredFrameBitsChangeNothing := by
  intro s f g hinv hlc hext hlen hid hdata
  have hscreen : screenFrame s f = screenFrame s g := screenFrame_congr hinv hlc hext hlen (targetId_congr hid)
  cases hs : screenFrame s f with
  | refuse r =>
    rw [processFrame_refuse hs, processFrame_refuse (hscreen ▸ hs)]
    exact frameBlind_refuse r s f g
  | drop r =>
    rw [processFrame_drop hs, processFrame_drop (hscreen ▸ hs)]
    exact frameBlind_dropFrame r s f g
  | pass =>
    have hsame : handle (commandId f.id) f.data = handle (commandId f.id) g.data := handle_congr hlen hdata
    rw [processFrame_pass hs, processFrame_pass (hscreen ▸ hs), ← commandId_congr hid, hsame]
    exact frameBlind_handle (commandId f.id) g.data s f g

end

section
/-! SUPPORT. The voltage byte (R101): truncation as the floor of the magnitude, and the high byte of a 16-bit value. -/

namespace Sys2Proof.Machine

/-- Truncation takes the floor of the magnitude (R12). -/
theorem truncToInt_eq (neg : Bool) (m : Nat) (e : Int) :
    truncToInt neg m e = if neg then -⌊(m : ℚ) * 2 ^ e⌋ else ⌊(m : ℚ) * 2 ^ e⌋ := by
  rw [← ratio_eq, Rat.floor_natCast_div_natCast]
  rfl

/-- The high byte of a value's 16-bit two's complement is the value divided by 256, rounded down, modulo 256. -/
theorem toNat_highByte (t : Int) : (((BitVec.ofInt 16 t).extractLsb' 8 8).toNat : Int) = t / 256 % 256 := by
  rw [BitVec.extractLsb'_toNat, Nat.shiftRight_eq_div_pow, BitVec.toNat_ofInt]
  omega

end Sys2Proof.Machine

open Sys2Proof.Machine

/-- Settles O60: each kind of product, a finite one by its truncated value. -/
theorem voltageByteIsHighByteOfDecivolts : Obligations.VoltageByteIsHighByteOfDecivolts := by
  intro v
  unfold vbyteB32
  cases mulRounded binary32 (unpack32 v) (.fin false 10 0) with
  | nan => rfl
  | inf neg => rfl
  | fin neg m e =>
    dsimp only
    rw [← truncToInt_eq]
    split
    · exact ⟨_, rfl, toNat_highByte _⟩
    · rfl

end

section
/-! SUPPORT. The lifecycle operations and the setters between `RUN`s: one equation per operation, and which
instructions write what the setters wrote. -/

namespace Sys2Proof.Machine

/-- The first refusal sets the mark with its reason (R40, R224). -/
theorem refuse_of_sound {s : State} (h : s.sound) (r : RefuseReason) :
    refuse r s = .next { s with refused := some r } := by
  rw [refuse, State.markRefused, h]

/-! ### The operations between `RUN`s -/

theorem exec_configure_idle {s : State} (hp : s.phase = .idle) (tp m : Bool) (a : Byte) (b : Word) :
    exec (.configure tp m a b) s =
      if s.lc ≠ .unconfigured then refuse .configureTwice s
      else .next { s with tpBound := tp, motorBound := m, nodeAddr := a, bitrate := b, lc := .configured } := by
  rw [exec, execConfigure, hostCall_idle hp]

theorem exec_openBus_idle {s : State} (hp : s.phase = .idle) :
    exec .openBus s =
      if s.lc = .unconfigured then refuse .openBeforeConfigure s
      else if s.lc = .opened then refuse .openTwice s
      else if s.tpBound = false then refuse .openUnboundTransport s
      else .next { s with
        loopback := false, filtId := s.nodeAddr.setWidth 29, filtMask := 0x000000FF#29, filtExt := true
        busStarted := true, lc := .opened } := by
  rw [exec, execOpenBus, hostCall_idle hp]

theorem exec_setRemoteEnable_idle {s : State} (hp : s.phase = .idle) (b : Bool) :
    exec (.setRemoteEnable b) s = .next { s with remoteEn := b } := by
  rw [exec, execSetRemoteEnable, hostCall_idle hp]

theorem exec_setVoltage_idle {s : State} (hp : s.phase = .idle) (v : B32) :
    exec (.setVoltage v) s = .next { s with voltage := v } := by
  rw [exec, execSetVoltage, hostCall_idle hp]

theorem exec_setError_idle {s : State} (hp : s.phase = .idle) (e : Int) :
    exec (.setError e) s = .next { s with error := errorValue s.params e } := by
  rw [exec, execSetError, hostCall_idle hp]

/-! ### The writers of what the setters wrote -/

/-- What an instruction that answers `t` does to `REMOTE_EN`, `VOLTAGE` and `ERROR`: it leaves all three, or it is a
setter and writes its own. -/
inductive SetterCase (i : Instr) (s t : State) : Prop where
  | kept : t.remoteEn = s.remoteEn → t.voltage = s.voltage → t.error = s.error → SetterCase i s t
  | remoteEn (b : Bool) : i = .setRemoteEnable b → t = { s with remoteEn := b } → SetterCase i s t
  | voltage (v : B32) : i = .setVoltage v → t = { s with voltage := v } → SetterCase i s t
  | error (e : Int) : i = .setError e → t = { s with error := errorValue s.params e } → SetterCase i s t

/-- Received commands and `RUN` keep the settings (R41). -/
theorem Confined.setterCase {i : Instr} {s t : State} (h : Confined i s t) : SetterCase i s t := by
  obtain ⟨-, hre, hv, he, -, -⟩ := settings_eq_iff.1 h.settings
  exact .kept hre hv he

theorem HostEffect.setterCase {i : Instr} {s t : State} (h : HostEffect i s t) : SetterCase i s t := by
  cases h with
  | setRemoteEnable _ b => exact .remoteEn b rfl rfl
  | setVoltage _ v => exact .voltage v rfl rfl
  | setError _ e => exact .error e rfl rfl
  | run _ now => exact (Confined.startRun now s).setterCase
  | configure | openBus | runNothing => exact .kept rfl rfl rfl

theorem exec_setterCase {i : Instr} {s t : State} (h : exec i s = .next t) : SetterCase i s t := by
  cases exec_cases h with
  | bus _ _ _ _ _ _ _ he => exact (Confined.busUpdate he).setterCase
  | refused => exact .kept rfl rfl rfl
  | host _ he => exact he.setterCase

end Sys2Proof.Machine

open Sys2Proof.Machine

/-- Settles O27: no setter reads the lifecycle, and an instruction that is no setter leaves all three registers. -/
theorem setterValuesPersist : Obligations.SetterValuesPersist := by
  refine ⟨fun _ s b v e _ hp => ?_, fun i s t hx => ?_⟩
  · exact ⟨⟨_, exec_setRemoteEnable_idle hp b, rfl, rfl⟩, ⟨_, exec_setVoltage_idle hp v, rfl, rfl⟩,
      ⟨_, exec_setError_idle hp e, rfl, rfl⟩⟩
  · cases exec_setterCase hx with
    | kept hre hv he => exact ⟨.inl hre, .inl hv, .inl he⟩
    | remoteEn b hi ht => subst ht; exact ⟨.inr hi, .inl rfl, .inl rfl⟩
    | voltage v hi ht => subst ht; exact ⟨.inl rfl, .inr hi, .inl rfl⟩
    | error e hi ht => subst ht; exact ⟨.inl rfl, .inl rfl, .inr ⟨e, hi, rfl⟩⟩

/-- Settles O24: `CONFIGURE` reads the lifecycle, and its refusal is the first. -/
theorem configureBindsAndStores : Obligations.ConfigureBindsAndStores := by
  intro s tp m a b hp
  rw [exec_configure_idle hp]
  refine ⟨fun hlc => if_neg (not_not.2 hlc), fun hlc hs => ?_⟩
  rw [if_pos hlc, refuse_of_sound hs]

/-- Settles O25: each clause is one branch of the checks of `OPEN`, in their order. -/
theorem openInstallsFilterAndStarts : Obligations.OpenInstallsFilterAndStarts := by
  intro s hp
  rw [exec_openBus_idle hp]
  refine ⟨fun hlc htp => ?_, fun hlc hs => ?_, fun hlc hs => ?_, fun hlc htp hs => ?_⟩
  · simp [hlc, htp]
  · simp [hlc, refuse_of_sound hs]
  · simp [hlc, refuse_of_sound hs]
  · simp [hlc, htp, refuse_of_sound hs]

/-- Settles O26: an error code of `ERR_W` bits is stored as it is. -/
theorem settersWriteTheirRegister : Obligations.SettersWriteTheirRegister := by
  intro s b v e hp
  refine ⟨exec_setRemoteEnable_idle hp b, exec_setVoltage_idle hp v, fun ⟨hlo, hhi⟩ => ?_⟩
  have hfits : errorValue s.params e = e := errorValue_of_fits (by exact_mod_cast hlo) (by exact_mod_cast hhi)
  rw [exec_setError_idle hp, hfits]

end

section
/-! SUPPORT. The checks before routing, each with what it reads (R142 to R147), and the block's step in the drain on a head
frame that passes them (R141). -/

namespace Sys2Proof.Machine

/-! ### The checks, in their order -/

theorem accepts_iff (s : State) (f : Frame) :
    accepts s f = true ↔ f.ext = s.filtExt ∧ f.id &&& s.filtMask = s.filtId &&& s.filtMask := by
  simp only [accepts, Bool.and_eq_true, beq_iff_eq]

/-- A frame that is not rejected under `EXACT` is accepted there. -/
theorem accepts_of_not_rejected {s : State} {f : Frame}
    (h : ¬ (s.params.acceptFilter = .exact ∧ ¬ (f.ext = s.filtExt ∧ f.id &&& s.filtMask = s.filtId &&& s.filtMask)))
    (hx : s.params.acceptFilter = .exact) : accepts s f = true :=
  (accepts_iff s f).2 (not_not.1 fun hf => h ⟨hx, hf⟩)

/-- The address predicate fails by both of its disjuncts (R146). -/
theorem addrPass_eq_false_iff (node target : Byte) :
    addrPass node target = false ↔ target &&& node = 0#8 ∧ target &&& 0xFF#8 = 0#8 := by
  simp only [addrPass, Bool.or_eq_false_iff, bne_eq_false_iff_eq]

theorem screenFrame_tooLong {s : State} {f : Frame} (h8 : 8 < f.len) : screenFrame s f = .refuse .rxLenGt8 :=
  if_pos h8

theorem screenFrame_notAccepted {s : State} {f : Frame} (h8 : ¬ 8 < f.len) (hx : s.params.acceptFilter = .exact)
    (ha : accepts s f = false) : screenFrame s f = .drop .notAccepted := by
  rw [screenFrame, if_neg h8, if_pos ⟨hx, ha⟩]

/-- Past the acceptance filter the frame type is checked, then the address. -/
theorem screenFrame_accepted {s : State} {f : Frame} (h8 : ¬ 8 < f.len)
    (ha : s.params.acceptFilter = .exact → accepts s f = true) :
    screenFrame s f =
      if f.ext = false then .drop .notExtended
      else if addrPass s.nodeAddr (targetId f.id) = false then .drop .address
      else .pass := by
  have hfilter : ¬ (s.params.acceptFilter = .exact ∧ accepts s f = false) := fun ⟨hx, hf⟩ => by simp [ha hx] at hf
  rw [screenFrame, if_neg h8, if_neg hfilter]

/-- An extended frame past the filter is dropped exactly when it is addressed to 0 (R147). -/
theorem screenFrame_extended {s : State} {f : Frame} (h8 : f.len ≤ 8)
    (ha : s.params.acceptFilter = .exact → accepts s f = true) (he : f.ext = true) :
    screenFrame s f = if targetId f.id = 0 then .drop .address else .pass := by
  rw [screenFrame_accepted h8.not_gt ha, if_neg (by simp [he])]
  by_cases ht : targetId f.id = 0
  · rw [if_pos ht, if_pos ((addrPass_eq_false_iff _ _).2 (by simp [ht]))]
  · rw [if_neg ht, if_neg (by simp [(addrPass_iff _ _).2 ht])]

/-- On an opened node the filter is the one that `OPEN` installs (R122, R143). -/
theorem accepts_opened {s : State} (hinv : s.Inv) (hlc : s.lc = .opened) (f : Frame) :
    accepts s f = true ↔ f.ext = true ∧ targetId f.id = s.nodeAddr := by
  obtain ⟨-, -, -, hopen, -⟩ := hinv
  obtain ⟨-, -, hid, hmask, hext⟩ := hopen hlc
  rw [accepts_ownFilter hid hmask hext, Bool.and_eq_true, beq_iff_eq]

/-! ### The block's step on the head frame -/

/-- The head frame, once past the checks, is run with the frame moved from the queue into `RXF` (R141, R142). -/
theorem blockStep_instr {s : State} {f : Frame} {q : List Frame} {i : Instr} (hp : s.phase = .drain)
    (hq : s.rxQueue = f :: q) (hs : screenFrame s f = .pass) (hd : decodeFrame f = .instr i) :
    blockStep s = exec i { s with rxQueue := q, rxf := f } :=
  (blockStep_frame hp hq).trans (processFrame_instr (s := { s with rxQueue := q }) hs hd)

/-- Where nothing happens outside, the step is the block's own (log entry 10). -/
theorem nextStep_tick {s : State} {rest : List Event} (hi : s.inputs = .tick :: rest) :
    nextStep s = blockStep { s with inputs := rest } := by
  simp only [nextStep, hi]

/-! ### `RUN` before `OPEN` -/

/-- With both collaborators bound a `RUN` on a node that is not opened is refused (R140). -/
theorem execRun_unopened {s : State} (now : Nat) (hp : s.phase = .idle) (htp : s.tpBound = true)
    (hm : s.motorBound = true) (hlc : s.lc ≠ .opened) : exec (.run now) s = refuse .runBeforeOpen s := by
  rw [exec, execRun, hostCall_idle hp, if_neg (by simp [htp, hm]), if_pos hlc]

end Sys2Proof.Machine

open Sys2Proof Sys2Proof.Machine

/-- Settles O9: each branch is the outcome of one check, with the checks before it passed. -/
theorem frameChecksRunInOrder : Obligations.FrameChecksRunInOrder := by
  intro s f hs
  split_ifs with h8 hacc hext haddr
  · rw [processFrame_refuse (screenFrame_tooLong h8), refuse_of_sound (s := { s with rxf := f }) hs]
  · obtain ⟨hx, hf⟩ := hacc
    rw [← accepts_iff, Bool.not_eq_true] at hf
    exact processFrame_drop (screenFrame_notAccepted h8 hx hf)
  · exact processFrame_drop ((screenFrame_accepted h8 (accepts_of_not_rejected hacc)).trans (if_pos hext))
  · have hscreen := (screenFrame_accepted h8 (accepts_of_not_rejected hacc)).trans (if_neg hext)
    exact processFrame_drop (hscreen.trans (if_pos ((addrPass_eq_false_iff _ _).2 haddr)))
  · have hscreen := (screenFrame_accepted h8 (accepts_of_not_rejected hacc)).trans (if_neg hext)
    have hpass := hscreen.trans (if_neg (mt (addrPass_eq_false_iff _ _).1 haddr))
    cases hd : decodeFrame f with
    | instr i => exact processFrame_instr hpass hd
    | reject r => exact processFrame_reject hpass hd

/-- Settles O12: an extended frame past the filter is judged by its target alone, which `EXACT` makes the own address. -/
theorem addressPredicateConsequences : Obligations.AddressPredicateConsequences := by
  refine ⟨addrPass_iff, fun s f hinv hlc h8 _ ha => ?_, fun s f _ h8 hn he ht => ?_⟩
  · obtain ⟨he, ht⟩ := (accepts_opened hinv hlc f).1 ha
    rw [screenFrame_extended h8 (fun _ => ha) he, ht]
    exact ⟨fun h => if_neg h, fun h => if_pos h⟩
  · exact (screenFrame_extended h8 (fun hx => by cases hn.symm.trans hx) he).trans (if_neg ht)

/-- Settles O8: each of the three gives the block its turn, and `blockStep` runs the head frame. -/
theorem stepRunsReceivedFrame : Obligations.StepRunsReceivedFrame := by
  intro s f q i hs hp hq hpass hd
  rw [step_sound hs]
  refine ⟨fun hw => ?_, fun rest hi => ?_, fun p rest hi hallow hn => ?_⟩
  · exact (nextStep_waiting hw (by simp [hp])).trans (blockStep_instr hp hq hpass hd)
  · exact (nextStep_tick hi).trans (blockStep_instr hp hq hpass hd)
  · have hturn := nextStep_peerTurn hi ((mayArrive_iff s).2 (.inr hallow)) hn
    exact hturn.trans (blockStep_instr hp hq hpass hd)

/-- Settles O11: the low identifier byte is the target. -/
theorem openedFilterMatchesOwnAddress : Obligations.OpenedFilterMatchesOwnAddress :=
  fun _ f hinv hlc => accepts_opened hinv hlc f

/-- Settles O31: the two checks of `RUN` before it starts. -/
theorem runNeedsBoundOpenedNode : Obligations.RunNeedsBoundOpenedNode := by
  refine fun s now hp => ⟨execRun_unbound now hp, fun htp hm hlc hs => ?_⟩
  rw [execRun_unopened now hp htp hm hlc, refuse_of_sound hs]

end

section
/-! SUPPORT. The default torque arithmetic (R162): the product with an exact fraction of one, and with a limit that is no
number. -/

namespace Sys2Proof.Machine

/-! ### Exact products -/

/-- A canonical significand of zero stands at the least exponent. -/
theorem Canonical.exp_eq_of_zero {fmt : FloatFormat} {e : Int} (hc : Canonical fmt 0 e) : e = fmt.minExp :=
  hc.lead.resolve_left (by simp)

/-- A value the format holds, zero too, is rounded to itself, however it is written. -/
theorem roundTo_canonical {fmt : FloatFormat} (hp : 1 ≤ fmt.prec) (neg : Bool) {mant m : Nat} {exp e : Int}
    (hc : Canonical fmt m e) (hv : (mant : ℚ) * 2 ^ exp = m * 2 ^ e) :
    roundTo fmt (.fin neg mant exp) = .fin neg m e := by
  obtain rfl | hm := Nat.eq_zero_or_pos m
  · have hmant : mant = 0 := by simpa [zpow_ne_zero] using hv
    rw [roundTo, roundRatio, if_pos (by simp [ratioNum, hmant]), hc.exp_eq_of_zero]
  · exact roundRatio_canonical hp neg (ratioDen_pos exp) hm hc ((ratio_eq mant exp).trans hv)

/-- The product of two numbers is their exact product, rounded. -/
theorem mulRounded_fin (fmt : FloatFormat) (s t : Bool) (m n : Nat) (e f : Int) :
    mulRounded fmt (.fin s m e) (.fin t n f) = roundTo fmt (.fin (s ^^ t) (m * n) (e + f)) := rfl

/-- Binary64 holds every value of binary32. -/
theorem exists_canonical_binary64 {m : Nat} {e : Int} (hc : Canonical binary32 m e) :
    ∃ m' e', Canonical binary64 m' e' ∧ (m' : ℚ) * 2 ^ e' = m * 2 ^ e := by
  have hge : -149 ≤ e := hc.ge
  have hle : e ≤ 104 := hc.le
  obtain rfl | hm := Nat.eq_zero_or_pos m
  · exact ⟨0, -1074, ⟨by decide, le_rfl, by decide, .inr rfl⟩, by simp⟩
  have hlog : Nat.log2 m < 24 := (Nat.log2_lt hm.ne').2 hc.lt
  obtain ⟨j, hj⟩ := Nat.exists_eq_add_of_le (show Nat.log2 m ≤ 52 by omega)
  refine ⟨m * 2 ^ j, e - j, ⟨?_, ?_, ?_, .inl ?_⟩, ?_⟩
  · calc m * 2 ^ j < 2 ^ (Nat.log2 m + 1) * 2 ^ j := Nat.mul_lt_mul_of_pos_right Nat.lt_log2_self (by positivity)
      _ = 2 ^ 53 := by rw [← pow_add]; congr 1; omega
  · show -1074 ≤ e - j
    omega
  · show e - j ≤ 971
    omega
  · calc 2 ^ 52 = 2 ^ Nat.log2 m * 2 ^ j := by rw [← pow_add, ← hj]
      _ ≤ m * 2 ^ j := Nat.mul_le_mul_right _ (Nat.log2_self_le hm.ne')
  · rw [zpow_sub₀ two_ne_zero, zpow_natCast]
    push_cast
    field_simp

/-- A fraction `n / n` is one. -/
theorem roundRatio_self (neg : Bool) {n : Nat} (hn : 0 < n) :
    roundRatio binary64 neg n n = .fin neg (2 ^ 52) (-52) := by
  have hnq : (n : ℚ) ≠ 0 := by exact_mod_cast hn.ne'
  have hc : Canonical binary64 (2 ^ 52) (-52) := ⟨by decide, by decide, by decide, .inl le_rfl⟩
  refine roundRatio_canonical (by decide) neg hn (by positivity) hc ?_
  rw [div_self hnq]
  norm_num

/-- An operand whose fraction is one gives a finite limit back, with the product's sign. -/
theorem torqueB64_of_unit {limit : B32} {raw : Word} {neg : Bool} {m : Nat} {e : Int}
    (h : unpack32 limit = .fin neg m e) (hraw : raw.toInt.natAbs = torqueScale) :
    torqueB64 limit raw = .fin (neg ^^ decide (raw.toInt < 0)) m e := by
  obtain ⟨hc, -⟩ := unpack32_fin h
  obtain ⟨m', e', hc', hv⟩ := exists_canonical_binary64 hc
  have hprod : ((m * 2 ^ 52 : ℕ) : ℚ) * 2 ^ (e + -52) = m' * 2 ^ e' := by
    rw [hv, zpow_add₀ two_ne_zero]
    push_cast
    ring
  rw [torqueB64, h, hraw, roundRatio_self _ (by decide), mulRounded_fin, roundTo_canonical (by decide) _ hc' hprod,
    roundTo_canonical (by decide) _ hc hv]

/-- The sign bit of a pattern is the sign of its value. -/
theorem unpack32_xor_signBit {b : B32} {neg : Bool} {m : Nat} {e : Int} (h : unpack32 b = .fin neg m e) :
    unpack32 (b ^^^ 0x80000000#32) = .fin (!neg) m e := by
  have hsign : (b ^^^ 0x80000000#32).getLsbD 31 = !b.getLsbD 31 := by simp
  have hexp : (b ^^^ 0x80000000#32).extractLsb' 23 8 = b.extractLsb' 23 8 := by
    rw [BitVec.extractLsb'_xor]
    exact BitVec.xor_zero
  have hfrac : (b ^^^ 0x80000000#32).extractLsb' 0 23 = b.extractLsb' 0 23 := by
    rw [BitVec.extractLsb'_xor]
    exact BitVec.xor_zero
  unfold unpack32 at h ⊢
  rw [hsign, hexp, hfrac]
  dsimp only at h ⊢
  split at h
  · split at h <;> cases h
  case isFalse hfull =>
    rw [if_neg hfull]
    split at h
    case isTrue hzero =>
      cases h
      rw [if_pos hzero]
    case isFalse hzero =>
      cases h
      rw [if_neg hzero]

/-! ### Limits that are no numbers -/

/-- A ratio of at least the least positive value is not rounded to zero. -/
theorem Rounding.ne_zero {fmt : FloatFormat} {x : ℚ} {k : Nat} {e : Int} (h : Rounding fmt x k e)
    (hx : 2 ^ fmt.minExp ≤ x) : k ≠ 0 := by
  rintro rfl
  have hpos : (0 : ℚ) < 2 ^ e := by positivity
  have hle : (2 : ℚ) ^ e ≤ x := by
    obtain heq | hlt := h.minExp_le.eq_or_lt
    · rwa [← heq]
    · exact (le_mul_of_one_le_left hpos.le (one_le_pow₀ one_le_two)).trans (h.lead hlt)
  have hone : 1 ≤ x / 2 ^ e := (one_le_div₀ hpos).2 hle
  have hnear := h.near
  rw [Nat.cast_zero, sub_zero, abs_of_nonneg (by linarith)] at hnear
  linarith

/-- Infinity times a rounded value that is not zero. -/
theorem mulRounded_inf_normalise (fmt fmt' : FloatFormat) (s neg : Bool) {k : Nat} (hk : k ≠ 0) (e : Int) :
    mulRounded fmt (.inf s) (normalise fmt' neg k e) = .inf (s ^^ neg) := by
  unfold normalise
  split
  · split
    · rfl
    · exact if_neg (by positivity)
  · split
    · rfl
    · exact if_neg hk

/-- An infinite limit times the fraction of a nonzero operand (R162). -/
theorem torqueB64_inf {limit : B32} {raw : Word} {neg : Bool} (h : unpack32 limit = .inf neg) (hraw : raw ≠ 0) :
    torqueB64 limit raw = .inf (neg ^^ decide (raw.toInt < 0)) := by
  have hpos : 0 < raw.toInt.natAbs := by
    rw [Int.natAbs_pos, ← BitVec.toInt_zero (w := 32)]
    exact fun hz => hraw (BitVec.eq_of_toInt_eq hz)
  obtain ⟨k, e, hround, hk⟩ := roundRatio_rounding (fmt := binary64) (by decide) (decide (raw.toInt < 0)) hpos
    (show 0 < torqueScale by decide)
  have hsmall : (2 : ℚ) ^ binary64.minExp ≤ raw.toInt.natAbs / torqueScale := by
    have hone : (1 : ℚ) ≤ raw.toInt.natAbs := by exact_mod_cast hpos
    calc (2 : ℚ) ^ (-1074 : ℤ) ≤ 2 ^ (-17 : ℤ) := zpow_le_zpow_right₀ one_le_two (by norm_num)
      _ ≤ 1 / 100000 := by norm_num
      _ ≤ raw.toInt.natAbs / 100000 := by gcongr
      _ = raw.toInt.natAbs / torqueScale := by norm_num [torqueScale]
  rw [torqueB64, h, hround, mulRounded_inf_normalise _ _ _ _ (hk.ne_zero hsmall) e]
  rfl

end Sys2Proof.Machine

open Sys2Proof.Machine

/-- Settles O56: the fraction is one, and binary64 holds the limit, so both roundings are exact. -/
theorem fullTorqueIsTheCurrentLimit : Obligations.FullTorqueIsTheCurrentLimit := by
  intro limit neg m e h
  rw [torqueB64_of_unit h (by decide), torqueB64_of_unit h (by decide)]
  constructor
  · rw [show decide ((100000#32).toInt < 0) = false by decide, Bool.xor_false]
    exact (unpack32_fin h).2
  · rw [show decide ((-100000#32).toInt < 0) = true by decide, Bool.xor_true]
    exact (unpack32_fin (unpack32_xor_signBit h)).2

/-- Settles O57: a nonzero operand's fraction is not rounded to zero. -/
theorem torqueOfSpecialLimits : Obligations.TorqueOfSpecialLimits := by
  refine ⟨fun limit raw h => ?_, fun limit raw neg h hraw => torqueB64_inf h hraw, fun limit neg h => ?_⟩
  · rw [torqueB64, h]
    rfl
  · rw [torqueB64, h]
    rfl

end

section
/-! SUPPORT. The rotor code (R168, R169): the wrap into a turn as an integer remainder of the angle in rotor units, and the
range of the code. -/

namespace Sys2Proof.Machine

open Real

/-! ### The range of the code -/

theorem angleCodeOf_lt (neg : Bool) (m : Nat) (e : Int) : angleCodeOf neg m e < 36000000 := by
  have hmod : angleUnits m e % fullTurn < fullTurn := Nat.mod_lt _ (by decide)
  unfold angleCodeOf
  split
  · decide
  · split
    · exact Nat.lt_of_le_of_lt (Nat.sub_le _ _) (by decide)
    · exact hmod

theorem angleIdeal_fin {theta : B32} {neg : Bool} {m : Nat} {e : Int} (h : unpack32 theta = .fin neg m e) :
    angleIdeal theta = some (BitVec.ofNat 32 (angleCodeOf neg m e)) := by
  rw [angleIdeal, h]

/-- Only a finite angle has a code (R168). -/
theorem angleIdeal_eq_none {theta : B32} (h : ∀ neg m e, unpack32 theta ≠ .fin neg m e) : angleIdeal theta = none := by
  unfold angleIdeal
  cases hu : unpack32 theta with
  | nan => rfl
  | inf neg => rfl
  | fin neg m e => exact absurd hu (h neg m e)

/-- The 32 bits of a code hold it whole. -/
theorem toNat_ofNat_angleCodeOf (neg : Bool) (m : Nat) (e : Int) :
    (BitVec.ofNat 32 (angleCodeOf neg m e)).toNat = angleCodeOf neg m e :=
  (BitVec.toNat_ofNat _ _).trans (Nat.mod_eq_of_lt ((angleCodeOf_lt neg m e).trans (by norm_num)))

theorem angleIdeal_lt {theta : B32} {code : Word} (h : angleIdeal theta = some code) : code.toNat < 36000000 := by
  cases hu : unpack32 theta with
  | nan => simp [angleIdeal, hu] at h
  | inf neg => simp [angleIdeal, hu] at h
  | fin neg m e =>
    rw [angleIdeal_fin hu, Option.some.injEq] at h
    rw [← h, toNat_ofNat_angleCodeOf]
    exact angleCodeOf_lt neg m e

/-! ### The wrap -/

/-- An angle without its whole turns lies in `[0, 2π)`. -/
theorem wrapped_mem (x : ℝ) : 0 ≤ x - 2 * π * ⌊x / (2 * π)⌋ ∧ x - 2 * π * ⌊x / (2 * π)⌋ < 2 * π := by
  have hlow := (le_div_iff₀ two_pi_pos).1 (Int.floor_le (x / (2 * π)))
  have hhigh := (div_lt_iff₀ two_pi_pos).1 (Int.lt_floor_add_one (x / (2 * π)))
  constructor <;> linarith

/-- In rotor units the wrap is the remainder by a full turn. -/
theorem floor_wrapped_units (x : ℝ) :
    ⌊(x - 2 * π * ⌊x / (2 * π)⌋) * 180 / π * 100000⌋ = ⌊x * 18000000 / π⌋ % 36000000 := by
  have hturn : x / (2 * π) = x * 18000000 / π / (36000000 : ℕ) := by
    have := pi_ne_zero
    push_cast
    field_simp
    ring
  have hunits : (x - 2 * π * ⌊x / (2 * π)⌋) * 180 / π * 100000 =
      x * 18000000 / π - ((36000000 * ⌊x / (2 * π)⌋ : ℤ) : ℝ) := by
    have := pi_ne_zero
    push_cast
    field_simp
    ring
  rw [hunits, Int.floor_sub_intCast, hturn, Int.floor_div_natCast, Int.emod_def]
  rfl

/-- A finite angle other than zero is no whole number of rotor units, since `π` is irrational. -/
theorem irrational_units {m : Nat} (hm : 0 < m) (e : Int) : Irrational ((m : ℝ) * 2 ^ e * 18000000 / π) := by
  have hne : (m * 2 ^ e * 18000000 : ℚ) ≠ 0 := by positivity
  have h := irrational_pi.ratCast_div hne
  push_cast at h
  exact h

/-- The floor on the other side of zero, where no integer is hit. -/
theorem floor_neg_of_irrational {u : ℝ} (hu : Irrational u) : ⌊-u⌋ = -⌊u⌋ - 1 := by
  have hlt : (⌊u⌋ : ℝ) < u := lt_of_le_of_ne (Int.floor_le u) (hu.ne_int ⌊u⌋).symm
  rw [Int.floor_eq_iff]
  push_cast
  constructor <;> linarith [Int.lt_floor_add_one u]

/-- The code is the angle in rotor units, rounded down, modulo a full turn. -/
theorem angleCodeOf_eq_floor_emod (neg : Bool) {m : Nat} {e : Int} (hc : Canonical binary32 m e) :
    (angleCodeOf neg m e : ℤ) = ⌊(if neg then -1 else 1) * ((m : ℝ) * 2 ^ e) * 18000000 / π⌋ % 36000000 := by
  obtain rfl | hm := Nat.eq_zero_or_pos m
  · simp [angleCodeOf]
  have hunits : (angleUnits m e : ℤ) = ⌊(m : ℝ) * 2 ^ e * 18000000 / π⌋ := by
    rw [angleUnits_eq_floor hc.ge hc.le hm hc.lt]
    exact Int.natCast_floor_eq_floor (by positivity)
  rw [angleCodeOf, if_neg hm.ne', fullTurn]
  cases neg with
  | false =>
    simp only [Bool.false_eq_true, if_false, one_mul]
    rw [← hunits]
    rfl
  | true =>
    have hneg : (-1 : ℝ) * (m * 2 ^ e) * 18000000 / π = -(m * 2 ^ e * 18000000 / π) := by ring
    simp only [if_true]
    rw [hneg, floor_neg_of_irrational (irrational_units hm e), ← hunits]
    omega

end Sys2Proof.Machine

open Sys2Proof Sys2Proof.Machine

/-- Settles O58: the wrap is a remainder in rotor units, and `angleUnits` is exact. -/
theorem rotorCodeIsExactInRealArithmetic : Obligations.RotorCodeIsExactInRealArithmetic := by
  refine ⟨fun theta neg m e h => ⟨_, angleIdeal_fin h, ?_⟩, fun theta h => angleIdeal_eq_none h⟩
  obtain ⟨hlow, hhigh⟩ := wrapped_mem ((if neg then -1 else 1) * (m * 2 ^ e))
  refine ⟨hlow, hhigh, ?_⟩
  rw [toNat_ofNat_angleCodeOf, floor_wrapped_units]
  exact angleCodeOf_eq_floor_emod neg (unpack32_fin h).1

/-- Settles O59: the first byte is the code divided by `2^24`, and `36000000 < 3 · 2^24`. -/
theorem rotorCodeRange : Obligations.RotorCodeRange := by
  intro theta code h
  have hlt := angleIdeal_lt h
  have hbyte {b : Byte} (hb : code.toNat / 2 ^ 24 = b.toNat) : (be32Bytes code)[0]? = some b :=
    congrArg some (extractLsb'_eq_of_toNat (by rw [hb, Nat.mod_eq_of_lt b.isLt]))
  have hcases : code.toNat / 2 ^ 24 = 0 ∨ code.toNat / 2 ^ 24 = 1 ∨ code.toNat / 2 ^ 24 = 2 := by omega
  exact ⟨by omega, hcases.imp (fun h0 => hbyte h0) (Or.imp (fun h1 => hbyte h1) fun h2 => hbyte h2)⟩

end

section
/-! SUPPORT. The torque command as one update with its target (R161), and what repeated transmissions send (R166, R191). -/

namespace Sys2Proof.Machine

/-! ### The torque command -/

/-- A pattern with a full exponent and a fraction other than zero is a NaN (R12). -/
theorem unpack32_eq_nan {b : B32} (hexp : b.extractLsb' 23 8 = 255#8) (hfrac : b.extractLsb' 0 23 ≠ 0#23) :
    unpack32 b = .nan := by
  have hf : (b.extractLsb' 0 23).toNat ≠ 0 := fun h => hfrac (BitVec.eq_of_toNat_eq h)
  unfold unpack32
  rw [hexp]
  dsimp only
  rw [if_pos (by decide), if_neg hf]

/-- Whatever is drawn, the pattern is a NaN. -/
theorem unpack32_nanOf (w : Word) : unpack32 (nanOf w) = .nan := by
  have hfull : ∀ x : Byte, x ||| 255#8 = 255#8 := fun _ => BitVec.or_allOnes
  unfold nanOf
  split
  case isTrue hz =>
    apply unpack32_eq_nan
    · rw [BitVec.extractLsb'_or]
      exact hfull _
    · rw [BitVec.extractLsb'_or, hz]
      decide
  case isFalse hz =>
    apply unpack32_eq_nan
    · rw [BitVec.extractLsb'_or]
      exact hfull _
    · rw [BitVec.extractLsb'_or]
      exact fun h => hz (BitVec.or_zero.symm.trans h)

theorem driveTorque_implementation {s : State} (h : s.params.torqueArith = .implementation) (raw : Word) :
    driveTorque raw s = s.setTarget (Config.torqueOther s.motor.currentLimit raw) := by
  simp only [driveTorque, h]

theorem driveTorque_number {s : State} {raw : Word} {v : B32} (h : s.params.torqueArith = .default)
    (hv : pack32 (torqueB64 s.motor.currentLimit raw) = some v) : driveTorque raw s = s.setTarget v := by
  simp only [driveTorque, h, hv]

/-- A NaN target is drawn (R162, R225). -/
theorem driveTorque_nan {s : State} {raw : Word} (h : s.params.torqueArith = .default)
    (hv : pack32 (torqueB64 s.motor.currentLimit raw) = none) :
    driveTorque raw s = (s.setTarget (nanOf (Config.freeWord s.draws))).drew 1 := by
  simp only [driveTorque, h, hv]

theorem execSetCurrentRel_local {s : State} (h : s.remoteEn = false) (payload : List Byte) :
    execSetCurrentRel payload s = dropFrame .scrRemoteDisabled s := if_pos h

theorem execSetCurrentRel_short {s : State} (h : s.remoteEn = true) {payload : List Byte} (hp : payload.length < 4) :
    execSetCurrentRel payload s = dropFrame .scrShort s := by
  simp only [execSetCurrentRel, h, Bool.true_eq_false, if_false, torqueOperand, leadingWord_eq_none hp]

theorem execSetCurrentRel_remote {s : State} (h : s.remoteEn = true) (b0 b1 b2 b3 : Byte) (more : List Byte) :
    execSetCurrentRel (b0 :: b1 :: b2 :: b3 :: more) s = .next (driveTorque (be32 b0 b1 b2 b3) s) := by
  simp only [execSetCurrentRel, h, Bool.true_eq_false, if_false, torqueOperand, leadingWord]

/-! ### Repeated transmissions -/

/-- A reply that reads nothing a transmission writes is sent again unchanged. -/
theorem out_reply_twice (reply : State → Frame) {s : State} (h : ∀ f, reply (s.txWrite f) = reply s) :
    let t := s.txWrite (reply s)
    ∃ f, t.out = s.out ++ [.tx f] ∧ (t.txWrite (reply t)).out = t.out ++ [.tx f] :=
  ⟨reply s, by simp, by simp [h]⟩

end Sys2Proof.Machine

open Sys2Proof Sys2Proof.Machine

/-- Settles O41: the gate, then the length, then each outcome of the torque parameter. -/
theorem setCurrentRelWritesTarget : Obligations.SetCurrentRelWritesTarget := by
  refine ⟨fun s _ b0 b1 b2 b3 more hr => ?_, fun s _ payload hr => execSetCurrentRel_local hr payload,
    fun s _ _ hr hp => execSetCurrentRel_short hr hp⟩
  simp only [exec, execSetCurrentRel_remote hr]
  cases harith : s.params.torqueArith with
  | implementation =>
    refine ⟨_, 0, nofun, fun _ => ⟨rfl, rfl⟩, ?_⟩
    rw [driveTorque_implementation harith]
    rfl
  | default =>
    cases hv : pack32 (torqueB64 s.motor.currentLimit (be32 b0 b1 b2 b3)) with
    | some v =>
      refine ⟨v, 0, fun _ => ⟨rfl, rfl⟩, nofun, ?_⟩
      rw [driveTorque_number harith hv]
      rfl
    | none =>
      refine ⟨nanOf (Config.freeWord s.draws), 1, fun _ => ⟨unpack32_nanOf _, rfl⟩, nofun, ?_⟩
      rw [driveTorque_nan harith hv]
      rfl

/-- Settles O51: a reply is made of what a transmission leaves, so the second is the first. -/
theorem repeatedQueriesReplyIdentically : Obligations.RepeatedQueriesReplyIdentically := by
  constructor
  · rintro s _ _ _ _ _ _ ⟨⟩ ⟨⟩
    exact out_reply_twice (fun s => pongFrame s.nodeAddr) (by simp)
  · rintro s _ _ _ _ r _ _ _ _ ⟨⟩ ⟨⟩
    exact out_reply_twice (fun s => fwVersionFrame r s.nodeAddr s.params.fwMajor s.params.fwMinor) (by simp)

end

section
/-! SUPPORT. What turns the motor on and off (R195, R199, R232), where a fresh stamp lies (R194), and how the short-buffer
replies are addressed (R192). -/

namespace Sys2Proof.Machine

/-! ### The motor's enable -/

/-- What an instruction that answers `t` does to `Motor.enabled`: it leaves it, the watchdog of a `RUN` clears it, or a
request for values in local mode sets it. -/
inductive EnableCase (i : Instr) (s t : State) : Prop where
  | kept : t.motor.enabled = s.motor.enabled → EnableCase i s t
  | timedOut (now : Nat) : i = .run now → s.remoteEn = true →
    900000 < ((now : Int) - s.lastComm) % 2 ^ s.params.clkW → t.motor.enabled = false → EnableCase i s t
  | requested : asksValues i = true → s.remoteEn = false → t.motor.enabled = true → EnableCase i s t

theorem EnableCase.startRun (now : Nat) (s : State) : EnableCase (.run now) s (startRun now s) := by
  rw [startRun_eq]
  split
  case isTrue hfires =>
    obtain ⟨helapsed, -, hremote⟩ := (watchdogFires_iff ..).1 hfires
    exact .timedOut now rfl hremote helapsed rfl
  case isFalse => exact .kept rfl

theorem EnableCase.of_hostEffect {i : Instr} {s t : State} (h : HostEffect i s t) : EnableCase i s t := by
  cases h with
  | run _ now => exact .startRun now s
  | configure | openBus | setRemoteEnable | setVoltage | setError | runNothing => exact .kept rfl

theorem EnableCase.of_exec {i : Instr} {s t : State} (h : exec i s = .next t) : EnableCase i s t := by
  cases exec_cases h with
  | bus _ en _ _ _ _ _ he =>
    by_cases hen : en = s.motor.enabled
    · exact .kept hen
    · obtain ⟨hasks, hon, hlocal⟩ := he.enabled_only hen
      exact .requested hasks hlocal hon
  | refused => exact .kept rfl
  | host _ he => exact .of_hostEffect he

/-! ### The fresh stamp -/

/-- A clock value `k` past `now`, `k` short of a turn of the clock, is `k` from `now` also when it wraps (R231). -/
theorem clockDiff_add {p : Params} (now : Nat) {k : Nat} (hk : k < 2 ^ p.clkW) :
    clockDiff p (clockValue p (now + k)) now = k := by
  have h : (clockDiff p (clockValue p (now + k)) now : Int) = k := by
    rw [clockDiff_clockValue, clockDiff_eq, Nat.cast_add, add_sub_cancel_left]
    exact Int.emod_eq_of_lt (by positivity) (by exact_mod_cast hk)
  exact_mod_cast h

/-- Whatever offset is drawn, the stamp is no further from `now` than the next `RUN` (R194). -/
theorem clockDiff_freshStamp_le (p : Params) (now nx off : Nat) :
    clockDiff p (freshStamp p now (some nx) off) now ≤ clockDiff p nx now := by
  have hoff : off % (clockDiff p nx now + 1) ≤ clockDiff p nx now :=
    Nat.le_of_lt_succ (Nat.mod_lt _ (Nat.succ_pos _))
  rw [freshStamp, clockDiff_add now (hoff.trans_lt (clockDiff_lt p nx now))]
  exact hoff

theorem refreshWatchdog_lastComm_freshRead {s : State} (hfresh : s.params.refreshStamp = .freshRead)
    (hgate : s.params.wdRefreshGated = false ∨ s.remoteEn = true) :
    (refreshWatchdog s).lastComm =
      freshStamp s.params s.now (nextRunNow s.inputs) (Config.freeClock s.draws) := by
  simp only [refreshWatchdog, if_pos hgate, State.stamp, hfresh]

/-- Of a request, only the refresh writes `LAST_COMM` (R193). -/
theorem answerMask_enableQuirk_lastComm (replyTo : Byte) (mask : Word) (s : State) :
    (answerMask replyTo mask (enableQuirk s)).lastComm = s.lastComm := by
  obtain ⟨b, -, hanswer⟩ := answerMask_eq replyTo mask (enableQuirk s)
  rw [hanswer, enableQuirk_eq]
  split <;> rfl

/-! ### The addresses of the short-buffer replies -/

theorem targetId_replyIdent (tgt cmd : Byte) : targetId (replyIdent tgt cmd) = tgt := by
  refine BitVec.eq_of_getLsbD_eq fun i hi => ?_
  simp [targetId, replyIdent, hi, show i < 29 by omega]

theorem commandId_replyIdent (tgt cmd : Byte) : commandId (replyIdent tgt cmd) = cmd := by
  refine BitVec.eq_of_getLsbD_eq fun i hi => ?_
  simp [commandId, replyIdent, hi, show 8 + i < 29 by omega]

/-- What is sent is addressed as R192 says when all of it is short replies. -/
theorem RepliesAddressed.of_shortReplies {s t : State} {r sub : Byte} (os : List Output) (hout : t.out = s.out ++ os)
    (hos : ∀ g, .tx g ∈ os → ∃ fields, g = shortReply r s.nodeAddr sub fields) : RepliesAddressed s t r sub := by
  refine ⟨os, hout, fun g hg => ?_⟩
  obtain ⟨fields, rfl⟩ := hos g hg
  exact ⟨targetId_replyIdent r cmdProcessShortBuffer, commandId_replyIdent r cmdProcessShortBuffer, rfl, rfl, rfl⟩

theorem RepliesAddressed.of_out_eq {s t : State} (h : t.out = s.out) (r sub : Byte) : RepliesAddressed s t r sub :=
  .of_shortReplies [] (by rw [h, List.append_nil]) (by simp)

theorem repliesAddressed_fwVersion (r : Byte) (s : State) : RepliesAddressed s (fwVersion r s) r subFwVersion := by
  refine .of_shortReplies _ (congrArg State.out (fwVersion_eq r s)) fun g hg => ?_
  simp only [List.mem_singleton, Output.tx.injEq] at hg
  exact ⟨_, hg⟩

theorem eq_valueFrame_of_mem {r b : Byte} {mask : Word} {s : State} {g : Frame} (hg : g ∈ answerFrames r mask b s) :
    ∃ echo value, g = valueFrame r s.nodeAddr echo value := by
  obtain hg | hg := List.mem_append.1 hg
  · split at hg
    · exact ⟨_, _, List.mem_singleton.1 hg⟩
    · cases hg
  · split at hg
    · exact ⟨_, _, List.mem_singleton.1 hg⟩
    · cases hg

theorem repliesAddressed_getValuesSelective {r : Byte} {rest : List Byte} {s t : State}
    (h : getValuesSelective r rest s = .next t) : RepliesAddressed s t r subGetValuesSelective := by
  unfold getValuesSelective at h
  split at h
  · cases h
    exact .of_out_eq rfl r _
  · rename_i mask _
    cases h
    obtain ⟨_, b, -, -, -, hx⟩ := request_eq r mask s
    refine .of_shortReplies _ ((congrArg State.out hx).trans (List.append_assoc ..)) fun g hg => ?_
    have hmem : g ∈ answerFrames r mask b s := by
      obtain hquirk | hreply := List.mem_append.1 hg
      · split at hquirk <;> simp at hquirk
      · simpa using hreply
    obtain ⟨echo, value, rfl⟩ := eq_valueFrame_of_mem hmem
    exact ⟨_, rfl⟩

/-- A short buffer sends nothing, or answers one of the two sub-commands (R170). -/
theorem execProcessShortBuffer_out {p : List Byte} {s t : State} (h : execProcessShortBuffer p s = .next t) :
    t.out = s.out ∨ ∃ r x sub rest, p = r :: x :: sub :: rest ∧ (sub = subFwVersion ∨ sub = subGetValuesSelective) ∧
      RepliesAddressed s t r sub := by
  unfold execProcessShortBuffer at h
  split at h
  · rename_i r x sub rest
    split_ifs at h with hfw hgvs
    · cases h
      exact .inr ⟨r, x, sub, rest, rfl, .inl hfw, hfw ▸ repliesAddressed_fwVersion r s⟩
    · exact .inr ⟨r, x, sub, rest, rfl, .inr hgvs, hgvs ▸ repliesAddressed_getValuesSelective h⟩
    · cases h
      exact .inl rfl
  · cases h
    exact .inl rfl

/-- A frame of command 8 sends nothing, or is a short buffer past the checks (R142, R148). -/
theorem processFrame_shortBuffer {f : Frame} {s t : State} (hcmd : commandId f.id = cmdProcessShortBuffer)
    (h : processFrame f s = .next t) :
    t.out = s.out ∨ execProcessShortBuffer f.data { s with rxf := f } = .next t := by
  cases hs : screenFrame s f with
  | refuse r =>
    cases (processFrame_refuse hs).symm.trans h
    exact .inl rfl
  | drop r =>
    cases (processFrame_drop hs).symm.trans h
    exact .inl rfl
  | pass =>
    rw [processFrame_pass hs, handle, if_pos hcmd] at h
    exact .inr h

end Sys2Proof.Machine

open Sys2Proof Sys2Proof.Machine

/-- Settles O36: of the cases of `EnableCase`, each transition has one. -/
theorem motorTransitionsHaveTheirCauses : Obligations.MotorTransitionsHaveTheirCauses := by
  intro i s t hx
  cases EnableCase.of_exec hx with
  | kept hen =>
    rw [hen]
    exact ⟨fun hon hoff => absurd hon (by simp [hoff]), fun hoff hon => absurd hon (by simp [hoff])⟩
  | timedOut now hi hremote helapsed hoff => exact ⟨fun _ _ => ⟨hremote, now, hi, helapsed⟩, by simp [hoff]⟩
  | requested hasks hlocal hon => exact ⟨by simp [hon], fun _ _ => ⟨hlocal, hasks⟩⟩

/-- Settles O45: the quirk's output comes before the replies, which are frames. -/
theorem localRequestEnablesMotor : Obligations.LocalRequestEnablesMotor := by
  intro s hdr r x m0 m1 m2 m3 more
  obtain ⟨stamp, b, -, -, -, hx⟩ := request_eq r (be32 m0 m1 m2 m3) s
  refine ⟨_, _, congrArg Host.Outcome.next hx, List.append_assoc _ _ _, fun hoff hlocal => ?_, fun hkept => ?_⟩
  · simp [hoff, hlocal]
  · have hquirk : ¬ (s.motor.enabled = false ∧ s.remoteEn = false) := by
      rintro ⟨hoff, hlocal⟩
      simp [hoff, hlocal] at hkept
    simp [hquirk]

/-- Settles O48: what a request stores is the stamp of its refresh, and both distances are clock differences. -/
theorem freshStampLiesBeforeNextRun : Obligations.FreshStampLiesBeforeNextRun := by
  intro s hdr r x m0 m1 m2 m3 more nx hfresh hgate hnext
  refine ⟨_, rfl, ?_⟩
  rw [answerMask_enableQuirk_lastComm, refreshWatchdog_lastComm_freshRead hfresh hgate, hnext, ← clockDiff_eq,
    ← clockDiff_eq]
  exact_mod_cast clockDiff_freshStamp_le s.params s.now nx _

/-- Settles O50: what answers a short buffer is one of two handlers, and each sends short replies only. -/
theorem shortBufferRepliesAreAddressed : Obligations.ShortBufferRepliesAreAddressed := by
  refine ⟨fun s t f hcmd hx hne => ?_, fun s _ _ r _ _ hx => ?_,
    fun _ _ _ _ _ _ hx => repliesAddressed_getValuesSelective hx, fun s t _ r x sub rest hx => ?_⟩
  · obtain hout | hx := processFrame_shortBuffer hcmd hx
    · exact absurd hout hne
    obtain hout | ⟨r, x, sub, rest, hdata, hsub, haddr⟩ := execProcessShortBuffer_out hx
    · exact absurd hout hne
    exact ⟨r, sub, by rw [hdata]; rfl, by rw [hdata]; rfl, hsub, haddr⟩
  · cases hx
    exact repliesAddressed_fwVersion r s
  · have hx : execProcessShortBuffer (r :: x :: sub :: rest) s = .next t := hx
    obtain hout | ⟨_, _, _, _, ⟨⟩, -, haddr⟩ := execProcessShortBuffer_out hx
    · exact .of_out_eq hout r sub
    · exact haddr

end

section
/-! SUPPORT. What stands in place of exceptions (R220 to R237): an instruction always answers, a drop is its own record,
`LAST_COMM` has one writer, and what a step that is no `MOTOR` step of the host does to the motor. -/

namespace Sys2Proof.Machine

/-! ### Answers and drops -/

/-- Every instruction answers a next state (R220): `exec_bus` and `exec_host` together. -/
theorem exec_answers (i : Instr) (s : State) : ∃ t, exec i s = .next t := by
  cases hb : i.fromBus with
  | true =>
    obtain ⟨_, _, _, _, _, _, _, -, hx⟩ := exec_bus i hb s
    exact ⟨_, hx⟩
  | false =>
    obtain ⟨_, hx⟩ | ⟨-, t, hx, -⟩ := exec_host i hb s
    · exact ⟨_, hx⟩
    · exact ⟨t, hx⟩

/-- A received command that records a drop does nothing else (R222). -/
theorem BusEffect.drops_eq_or {i : Instr} {s : State} {last : Nat} {en : Bool} {target : B32} {os : List Output}
    {fs : List Frame} {ds : List (DropReason × Frame)} {n : Nat} (h : BusEffect i s last en target os fs ds n) :
    (busUpdate s last en target os fs ds n).drops = s.drops ∨
      ∃ r, busUpdate s last en target os fs ds n = s.recordDrop r := by
  by_cases hds : ds = []
  · exact .inl (by simp only [busUpdate, hds, List.append_nil])
  · obtain ⟨⟨r, rfl⟩, rfl, rfl, rfl, rfl, rfl, rfl⟩ := h.dropped hds
    exact .inr ⟨r, (Host.Outcome.next.inj (dropFrame_eq r s)).symm⟩

/-- A frame leaves the record of drops alone, or recording its own is all it does beside loading `RXF` (R222). -/
theorem processFrame_drops_eq_or {f : Frame} {s t : State} (h : processFrame f s = .next t) :
    t.drops = s.drops ∨ ∃ r, t = State.recordDrop r { s with rxf := f } := by
  obtain ⟨-, hx⟩ | ⟨-, i, last, en, target, os, fs, ds, n, he, hx⟩ := processFrame_effect f s
  · cases h.symm.trans hx
    exact .inl rfl
  · cases h.symm.trans hx
    exact he.drops_eq_or

/-! ### The writer of `LAST_COMM` -/

@[simp] theorem startRun_lastComm (now : Nat) (s : State) : (startRun now s).lastComm = s.lastComm := by
  rw [startRun_eq]; split <;> rfl

theorem HostEffect.lastComm_eq {i : Instr} {s t : State} (h : HostEffect i s t) : t.lastComm = s.lastComm := by
  cases h with
  | run _ now => exact startRun_lastComm now s
  | configure | openBus | setRemoteEnable | setVoltage | setError | runNothing => rfl

/-- Only a request for values changes `LAST_COMM` (R234). -/
theorem asksValues_of_lastComm_ne {i : Instr} {s t : State} (hx : exec i s = .next t)
    (hne : t.lastComm ≠ s.lastComm) : asksValues i = true := by
  cases exec_cases hx with
  | bus _ _ _ _ _ _ _ he => exact he.last_only hne
  | refused => exact absurd rfl hne
  | host _ he => exact absurd he.lastComm_eq hne

/-! ### The watchdog of a `RUN` -/

/-- What the watchdog check of a `RUN` does to the motor and the outputs (R232, R233): nothing, or it fires. -/
inductive WatchdogCase (s t : State) : Prop where
  | silent : t.motor = s.motor → t.out = s.out → WatchdogCase s t
  | fires : s.motor.enabled = true → s.remoteEn = true → t.motor = { s.motor with enabled := false } →
    t.out = s.out ++ [.motorDisable, .diag .wdTimeout] → WatchdogCase s t

theorem WatchdogCase.startRun (now : Nat) (s : State) : WatchdogCase s (startRun now s) := by
  rw [startRun_eq]
  split
  case isTrue hfires =>
    obtain ⟨-, hon, hremote⟩ := (watchdogFires_iff ..).1 hfires
    exact .fires hon hremote rfl rfl
  case isFalse => exact .silent rfl rfl

theorem HostEffect.watchdogCase {i : Instr} {s t : State} (h : HostEffect i s t) : WatchdogCase s t := by
  cases h with
  | run _ now => exact .startRun now s
  | configure | openBus | setRemoteEnable | setVoltage | setError | runNothing => exact .silent rfl rfl

/-- No host operation touches the motor or the outputs but by the watchdog. -/
theorem WatchdogCase.of_exec {i : Instr} {s t : State} (hi : i.fromBus = false) (h : exec i s = .next t) :
    WatchdogCase s t := by
  obtain ⟨r, hx⟩ | ⟨-, u, hx, he⟩ := exec_host i hi s
  · cases h.symm.trans hx
    exact .silent rfl rfl
  · cases h.symm.trans hx
    exact he.watchdogCase

/-! ### The motor, operation by operation -/

/-- What any step but a `MOTOR` step of the host does to the motor and the outputs: it keeps the motor's inputs (R241),
stops the motor only in remote mode (R237), starts it only in local mode (R195, R236), and emits what the watchdog
emits only with the motor enabled (R235). -/
structure MotorEffect (s t : State) : Prop where
  currentLimit : t.motor.currentLimit = s.motor.currentLimit
  shaftAngle : t.motor.shaftAngle = s.motor.shaftAngle
  stopped : s.motor.enabled = true → t.motor.enabled = false → s.remoteEn = true
  started : s.motor.enabled = false → t.motor.enabled = true → s.remoteEn = false
  emitted : ∃ new, t.out = s.out ++ new ∧
    (s.motor.enabled = false → .motorDisable ∉ new ∧ .diag .wdTimeout ∉ new)

namespace MotorEffect

theorem of_eq {s t : State} (hm : t.motor = s.motor) (ho : t.out = s.out) : MotorEffect s t where
  currentLimit := by rw [hm]
  shaftAngle := by rw [hm]
  stopped hon hoff := by simp [hm, hon] at hoff
  started hoff hon := by simp [hm, hoff] at hon
  emitted := ⟨[], by rw [ho, List.append_nil], by simp⟩

/-- Of the state before, only the motor, `REMOTE_EN` and the outputs count. -/
theorem of_source {s s' t : State} (h : MotorEffect s' t) (hm : s'.motor = s.motor) (hr : s'.remoteEn = s.remoteEn)
    (ho : s'.out = s.out) : MotorEffect s t where
  currentLimit := hm ▸ h.currentLimit
  shaftAngle := hm ▸ h.shaftAngle
  stopped := hm ▸ hr ▸ h.stopped
  started := hm ▸ hr ▸ h.started
  emitted := hm ▸ ho ▸ h.emitted

theorem of_busEffect {i : Instr} {s : State} {last : Nat} {en : Bool} {target : B32} {os : List Output}
    {fs : List Frame} {ds : List (DropReason × Frame)} {n : Nat} (h : BusEffect i s last en target os fs ds n) :
    MotorEffect s (busUpdate s last en target os fs ds n) where
  currentLimit := rfl
  shaftAngle := rfl
  stopped hon hoff := by
    have hoff : en = false := hoff
    obtain ⟨-, hen, -⟩ := h.enabled_only (by simp [hon, hoff])
    exact absurd hen (by simp [hoff])
  started hoff hon := by
    have hon : en = true := hon
    exact (h.enabled_only (by simp [hon, hoff])).2.2
  emitted := ⟨os, rfl, fun _ => h.no_watchdog⟩

theorem of_watchdogCase {s t : State} (h : WatchdogCase s t) : MotorEffect s t := by
  cases h with
  | silent hm ho => exact of_eq hm ho
  | fires hon hremote hm ho => exact
      { currentLimit := by rw [hm]
        shaftAngle := by rw [hm]
        stopped := fun _ _ => hremote
        started := fun hoff => absurd hon (by simp [hoff])
        emitted := ⟨_, ho, fun hoff => absurd hon (by simp [hoff])⟩ }

theorem of_exec {i : Instr} {s t : State} (h : exec i s = .next t) : MotorEffect s t := by
  cases exec_cases h with
  | bus _ _ _ _ _ _ _ he => exact of_busEffect he
  | refused => exact of_eq rfl rfl
  | host _ he => exact of_watchdogCase he.watchdogCase

theorem of_processFrame {f : Frame} {s t : State} (h : processFrame f s = .next t) : MotorEffect s t := by
  obtain ⟨-, hx⟩ | ⟨-, i, last, en, target, os, fs, ds, n, he, hx⟩ := processFrame_effect f s
  · cases h.symm.trans hx
    exact of_eq rfl rfl
  · cases h.symm.trans hx
    exact (of_busEffect he).of_source rfl rfl rfl

theorem of_blockCase {s t : State} (h : BlockCase s t) : MotorEffect s t := by
  cases h with
  | idle => exact of_eq rfl rfl
  | watchdog => exact of_watchdogCase (.startRun s.now s)
  | ends => exact of_eq rfl rfl
  | frame _ _ _ _ _ hx => exact (of_processFrame hx).of_source rfl rfl rfl

/-- The queue is no part of the motor. -/
theorem receive (f : Frame) (s : State) : MotorEffect s (receive f s) := by
  unfold Machine.receive
  split <;> exact of_eq rfl rfl

/-- Every step has this effect, but a `MOTOR` step of the host, which comes between `RUN`s (R241). -/
theorem of_stepCase {s t : State} (h : StepCase s t) :
    MotorEffect s t ∨ s.phase = .idle ∧ ∃ m rest, s.inputs = .motor m :: rest := by
  cases h with
  | motor m rest hi hp => exact .inr ⟨hp, m, rest, hi⟩
  | block _ hb => exact .inl (of_blockCase hb)
  | tick _ _ _ hb => exact .inl ((of_blockCase hb).of_source rfl rfl rfl)
  | peerTurn _ _ _ _ _ hb => exact .inl ((of_blockCase hb).of_source rfl rfl rfl)
  | returned => exact .inl (of_eq rfl rfl)
  | badHost => exact .inl (of_eq rfl rfl)
  | rx => exact .inl ((receive _ _).of_source rfl rfl rfl)
  | rxRemote => exact .inl ((receive _ _).of_source rfl rfl rfl)
  | peerFrame => exact .inl ((receive _ _).of_source rfl rfl rfl)
  | host _ _ _ _ _ _ hx => exact .inl ((of_exec hx).of_source rfl rfl rfl)

theorem of_step {s t : State} (h : step s = .next t) (hm : ∀ m rest, s.inputs ≠ .motor m :: rest) :
    MotorEffect s t :=
  (of_stepCase (step_cases h).2).resolve_right fun ⟨_, m, rest, hi⟩ => hm m rest hi

end MotorEffect

end Sys2Proof.Machine

open Sys2Proof Sys2Proof.Machine

/-- Settles O22: received commands and host operations both answer. -/
theorem everyInstructionAnswersNextState : Obligations.EveryInstructionAnswersNextState := exec_answers

/-- Settles O14: a frame that changes the record of drops does so by its own drop alone. -/
theorem droppedFrameHasNoEffect : Obligations.DroppedFrameHasNoEffect :=
  fun _ _ _ hx hne => (processFrame_drops_eq_or hx).resolve_left hne

/-- Settles O37: a drop keeps `LAST_COMM`, so a frame that changes it ran an instruction, which was a request. -/
theorem onlyValueRequestsRefreshWatchdog : Obligations.OnlyValueRequestsRefreshWatchdog := by
  refine ⟨fun i s t hx hasks => ?_, fun f s t hx hne => ⟨?_, ?_⟩⟩
  · by_contra hne
    exact absurd (asksValues_of_lastComm_ne hx hne) (by simp [hasks])
  · obtain hdrops | ⟨r, rfl⟩ := processFrame_drops_eq_or hx
    · exact hdrops
    · exact absurd rfl hne
  · obtain ⟨u, hu, hcase⟩ := processFrame_cases f s
    cases hx.symm.trans hu
    cases hcase with
    | refused => exact absurd rfl hne
    | dropped => exact absurd rfl hne
    | ran i _ _ hd hrun => exact ⟨i, hd, asksValues_of_lastComm_ne hrun hne⟩

/-- Settles O17: a step during a `RUN` is no `MOTOR` step, and no other step writes the motor's inputs. -/
theorem motorInputsChangeOnlyBetweenRuns : Obligations.MotorInputsChangeOnlyBetweenRuns := by
  refine ⟨fun s m rest hs hi => ⟨fun hp => ?_, fun hp => ?_⟩, fun s t hp hx => ?_⟩
  · rw [step_sound hs]
    simp only [nextStep, hi, if_pos hp, Motor.apply]
  · have hw : s.outsideWaits = true := by simp only [State.outsideWaits, hi]
    exact (step_sound hs).trans (nextStep_waiting hw hp)
  · obtain heffect | ⟨hidle, -⟩ := MotorEffect.of_stepCase (step_cases hx).2
    · exact ⟨heffect.currentLimit, heffect.shaftAngle⟩
    · exact absurd hidle hp

/-- Settles O35: a step stops the motor only in remote mode. -/
theorem remoteDisabledNeverStopsMotor : Obligations.RemoteDisabledNeverStopsMotor := by
  intro s t hlocal hon hm hx
  by_contra hoff
  have hremote : s.remoteEn = true := (MotorEffect.of_step hx hm).stopped hon (by simpa using hoff)
  exact absurd hremote (by simp [hlocal])

/-- Settles O38: `RUN` is silent or fires on an enabled motor, and only local mode lets a step end the window. -/
theorem watchdogFiresOncePerWindow : Obligations.WatchdogFiresOncePerWindow := by
  refine ⟨fun s t now hx hne => ?_, fun s now hoff t hx => ?_, fun i s t hi hremote hx => ?_,
    fun s t hremote hoff hm hx => ?_⟩
  · cases WatchdogCase.of_exec rfl hx with
    | silent _ hout => exact absurd hout hne
    | fires _ _ hmotor hout => exact ⟨hout, hmotor⟩
  · cases WatchdogCase.of_exec rfl hx with
    | silent hmotor hout => exact ⟨hout, hmotor⟩
    | fires hon => exact absurd hon (by simp [hoff])
  · cases EnableCase.of_exec hx with
    | kept hen => exact hen
    | timedOut now hrun => exact absurd hi (by simp [hrun, Instr.fromBus])
    | requested _ hlocal => exact absurd hremote (by simp [hlocal])
  · have heffect : MotorEffect s t := .of_step hx hm
    obtain ⟨new, hout, hquiet⟩ := heffect.emitted
    refine ⟨?_, new, hout, hquiet hoff⟩
    by_contra hon
    have hlocal : s.remoteEn = false := heffect.started hoff (by simpa using hon)
    exact absurd hremote (by simp [hlocal])

/-- Settles O18: with nothing listed the step is the block's own, which `PHASE` decides. -/
theorem idleBlockKeepsItsState : Obligations.IdleBlockKeepsItsState := by
  intro s hs hp hi
  rw [step_sound hs]
  simp only [nextStep, hi, blockStep, hp]

/-- Settles O32: the bound, opened node starts the `RUN`, whose comparator is the one on integers. -/
theorem runChecksWatchdogThenDrains : Obligations.RunChecksWatchdogThenDrains := by
  intro s now hp htp hmb hlc
  have hbound : ¬ (s.tpBound = false ∨ s.motorBound = false) := by simp [htp, hmb]
  rw [execRun_bound now hp hbound hlc, startRun_eq]
  simp only [watchdogFires_iff]
  split <;> rfl

end

section
/-! SUPPORT. The invariant at power-on (R260), and the guard of every host operation during a `RUN` (R275). -/

namespace Sys2Proof.Machine

/-- At power-on the node is idle, unconfigured and unbound (R260), and `LAST_COMM_INIT` is cut to `CLK_W` bits. -/
theorem inv_powerOn (p : Params) : (State.powerOn p).Inv := by
  have hclock : 0 < 2 ^ p.clkW := Nat.two_pow_pos _
  have hlast : p.lastCommInit % 2 ^ p.clkW < 2 ^ p.clkW := Nat.mod_lt _ hclock
  have herr : 0 < 2 ^ p.errW := Nat.two_pow_pos _
  refine ⟨nofun, absurd rfl, ⟨nofun, nofun⟩, nofun, fun _ => rfl, fun _ => ⟨rfl, rfl⟩, ⟨hclock, hlast⟩, ?_⟩
  simp only [State.powerOn]
  omega

/-- Every host operation begins with the guard of `hostCall`. -/
theorem exec_host_busy {i : Instr} {s : State} (hi : i.fromBus = false) (hp : s.phase ≠ .idle) :
    exec i s = refuse .hostOpDuringRun s := by
  cases i with
  | configure | openBus | setRemoteEnable | setVoltage | setError | run =>
    simp only [exec, execConfigure, execOpenBus, execSetRemoteEnable, execSetVoltage, execSetError, execRun,
      hostCall_busy hp, refuse]
  | processShortBuffer | setCurrentRel | ping | pollRotorPos | sbFwVersion | sbGetValuesSelective =>
    simp [Instr.fromBus] at hi

end Sys2Proof.Machine

open Sys2Proof.Machine

/-- Settles O20: the reset state is the power-on state of the default parameters. -/
theorem invariantHoldsAtPowerOn : Obligations.InvariantHoldsAtPowerOn :=
  ⟨inv_powerOn _, inv_powerOn⟩

/-- Settles O28: the guard refuses, and on an unmarked machine the mark takes that reason. -/
theorem hostOperationDuringRunIsRefused : Obligations.HostOperationDuringRunIsRefused :=
  fun _ _ hi hp hs => (exec_host_busy hi hp).trans (refuse_of_sound hs _)

end
